-- ==== Sys2Proof/Word.lean ====
section
/-! DEFINITION. The two bit-vector types of the machine: a byte is 8 bits, a word is 16 (00_scope.md section 5.1,
REG_BITS and ADDR_BITS of R5). Their `+` and `-` are the spec's `+8`, `-8`, `+16`, `-16`: modulo 2^8 and 2^16. -/

namespace Sys2Proof

/-- An 8-bit value: a memory cell, a general register, an operand byte (R5, R11, R19). -/
abbrev Byte := BitVec 8

/-- A 16-bit value: an address, PC, SP, JSR's target (R5, R12, R14, R30). -/
abbrev Word := BitVec 16

end Sys2Proof
end

