-- ==== Sys2Proof/Machine/Bits.lean ====
section
/-! DEFINITION. The bit-field helpers of 00_scope.md section 5.1: `lo(w) = w[7:0]`, `hi(w) = w[15:8]`, `{h, l}`, `zext_16`.
`sext_N` is "defined only for completeness: no rule uses it", so there is none. -/

namespace Sys2Proof

/-- `lo(w) = w[7:0]`. -/
def loByte (w : Word) : Byte := w.extractLsb' 0 8

/-- `hi(w) = w[15:8]`. -/
def hiByte (w : Word) : Byte := w.extractLsb' 8 8

/-- `{hi, lo}`: the word `hi * 256 + lo`. -/
def wordOf (hi lo : Byte) : Word := hi ++ lo

/-- `zext_16(b)`: the zero-page address of a byte (R52). -/
def zext16 (b : Byte) : Word := b.setWidth 16

end Sys2Proof
end

