-- ==== Sys2Proof/Config.lean ====
section
/-! DEFINITION. The parameters of the machine that the source document does not fix (R5 of 00_scope.md): "a model should
take it as a field of its configuration so that a claim can name it". The values this hardware takes are
Machine/Params.lean's `config`; the constraints on them are WellFormed.lean's. There is no free value: R90. -/

namespace Sys2Proof

/-- The named parameters of R5: the stack page's base (D2), the reset value of SP (D4), nine opcode bytes (D10). -/
structure Config where
  /-- STACK_PAGE_BASE: the lowest address of the 256-byte stack page. -/
  stackPageBase : Word
  /-- SP_RESET: the value Reset() gives SP. -/
  spReset : Word
  /-- OPC_LDA_ZP. -/
  opcLdaZp : Byte
  /-- OPC_LDA_ZPX. -/
  opcLdaZpX : Byte
  /-- OPC_LDX_IMM. -/
  opcLdxImm : Byte
  /-- OPC_LDY_IMM. -/
  opcLdyImm : Byte
  /-- OPC_CLC. -/
  opcClc : Byte
  /-- OPC_SEC. -/
  opcSec : Byte
  /-- OPC_TAY. -/
  opcTay : Byte
  /-- OPC_TXA. -/
  opcTxa : Byte
  /-- OPC_TYA. -/
  opcTya : Byte
  deriving DecidableEq, Repr

end Sys2Proof
end

