-- ==== Sys2Proof/Machine/Params.lean ====
section
/-! DEFINITION. The values of the constants the source document fixes, and of the parameters of Config.lean that the spec
decides (R5 of 00_scope.md). -/

namespace Sys2Proof

/-- RESET_PC: "address `0xFFFC` is the architecturally fixed reset location"; the address itself, not a vector (R171). -/
def resetPc : Word := 0xFFFC

/-- STACK_PAGE_SIZE: "a fixed 256-byte page" (R5). -/
def stackPageSize : Nat := 256

/-- The opcode byte of LDA immediate (R53: the document's scenario A). -/
def opcLdaImm : Byte := 0xA9

/-- The opcode byte of JSR (R53: the document's scenario C). -/
def opcJsr : Byte := 0x20

/-- The opcode byte of RTS (R53: the document's scenario C). -/
def opcRts : Byte := 0x60

/-- The opcode byte of TAX (R53: the document's scenario B). -/
def opcTax : Byte := 0xAA

/-- The defaults of R5. PRESUMED (the 6502 family's, D2, D10: log 4, log 6): the stack page's base and the nine opcode
bytes, unsafe. DESIGN CHOICE of the spec (D4: log 5): SP_RESET, unsafe. -/
def config : Config where
  stackPageBase := 0x0100
  spReset := 0x01FF
  opcLdaZp := 0xA5
  opcLdaZpX := 0xB5
  opcLdxImm := 0xA2
  opcLdyImm := 0xA0
  opcClc := 0x18
  opcSec := 0x38
  opcTay := 0xA8
  opcTxa := 0x8A
  opcTya := 0x98

end Sys2Proof
end

