-- ==== Sys2Proof/Syntax.lean ====
section
/-! DEFINITION. The instructions: one constructor per row of the catalog, R53 of 30_encoding.md. The operand is the
instruction's operand byte or word, as assembled by R52. -/

namespace Sys2Proof

/-- The 13 instruction forms of R53, with their operands (R58). -/
inductive Instr where
  /-- LDA #imm: load A, immediate (R100). -/
  | ldaImm (imm : Byte)
  /-- LDA zp: load A, zero page (R101). -/
  | ldaZp (zp : Byte)
  /-- LDA zp,X: load A, zero page indexed by X (R102). -/
  | ldaZpX (zp : Byte)
  /-- LDX #imm: load X, immediate (R103). -/
  | ldxImm (imm : Byte)
  /-- LDY #imm: load Y, immediate (R104). -/
  | ldyImm (imm : Byte)
  /-- JSR abs: jump to subroutine (R110). -/
  | jsr (target : Word)
  /-- RTS: return from subroutine (R111). -/
  | rts
  /-- CLC: clear carry (R120). -/
  | clc
  /-- SEC: set carry (R121). -/
  | sec
  /-- TAX: transfer A to X (R130). -/
  | tax
  /-- TAY: transfer A to Y (R131). -/
  | tay
  /-- TXA: transfer X to A (R132). -/
  | txa
  /-- TYA: transfer Y to A (R133). -/
  | tya
  deriving DecidableEq, Repr

end Sys2Proof
end

