-- ==== Sys2Proof/WellFormed.lean ====
section
/-! DEFINITION. What must hold of the static data: of an instruction (R50 to R55) and of the configuration (R5's
"Constraints a model must place on the parameters"). -/

namespace Sys2Proof

/-- An instruction's check. R55: "any value 0x00..0xFF is a legal operand"; R110: "The target may be any 16-bit address".
The operands' types are exactly those ranges, so every term of Instr is a legal instruction. -/
def Instr.wf : Instr → Bool
  | .ldaImm _ => true
  | .ldaZp _ => true
  | .ldaZpX _ => true
  | .ldxImm _ => true
  | .ldyImm _ => true
  | .jsr _ => true
  | .rts => true
  | .clc => true
  | .sec => true
  | .tax => true
  | .tay => true
  | .txa => true
  | .tya => true

/-- The 13 opcode bytes of a configuration, in the order of R53. -/
def Config.opcodes (c : Config) : List Byte :=
  [opcLdaImm, c.opcLdaZp, c.opcLdaZpX, c.opcLdxImm, c.opcLdyImm, opcJsr, opcRts,
   c.opcClc, c.opcSec, opcTax, c.opcTay, c.opcTxa, c.opcTya]

/-- "the 13 opcode bytes are pairwise distinct" (R5). -/
def Config.opcodesDistinct (c : Config) : Bool := decide c.opcodes.Nodup

/-- "`STACK_PAGE_BASE` is a multiple of 256 with `0x0100 <= STACK_PAGE_BASE <= 0xFF00`" (R5). -/
def Config.stackPageLegal (c : Config) : Bool :=
  decide (c.stackPageBase.toNat % 256 = 0) && decide (0x0100 ≤ c.stackPageBase.toNat)
    && decide (c.stackPageBase.toNat ≤ 0xFF00)

/-- "`STACK_PAGE_BASE <= SP_RESET <= STACK_PAGE_BASE + 0xFF`" (R5). -/
def Config.spResetLegal (c : Config) : Bool :=
  decide (c.stackPageBase.toNat ≤ c.spReset.toNat) && decide (c.spReset.toNat ≤ c.stackPageBase.toNat + 0xFF)

/-- All of R5's constraints on the parameters. -/
def Config.wf (c : Config) : Bool := c.opcodesDistinct && c.stackPageLegal && c.spResetLegal

end Sys2Proof
end

