-- ==== Sys2Proof/Decode.lean ====
section
/-! DEFINITION. The instruction catalog (R53 of 30_encoding.md), the decoder and the encoder (R50 to R58), and the
assembler text of R57. The catalog is read-only configuration data, not state (R26 of 10_state.md). -/

namespace Sys2Proof

/-- The three formats of R51. -/
inductive Format where
  /-- One byte: the opcode. -/
  | imp
  /-- Two bytes: opcode, operand8. -/
  | op8
  /-- Three bytes: opcode, operand_lo, operand_hi. -/
  | op16
  deriving DecidableEq, Repr

/-- The addressing modes of R58. -/
inductive Mode where
  | implied
  | immediate
  | zeroPage
  | zeroPageX
  | absolute
  deriving DecidableEq, Repr

/-- The names of the catalog's 13 rows (R53): an instruction without its operand. -/
inductive Form where
  | ldaImm
  | ldaZp
  | ldaZpX
  | ldxImm
  | ldyImm
  | jsr
  | rts
  | clc
  | sec
  | tax
  | tay
  | txa
  | tya
  deriving DecidableEq, Repr

/-- One row of the catalog: "(mnemonic, addressing mode, minimum cycle cost, semantic action)" with its opcode byte; the
semantic action is the meaning that exec calls. -/
structure CatalogRow where
  mnemonic : String
  mode : Mode
  opcode : Byte
  cost : Nat
  deriving DecidableEq, Repr

/-- The table of R53, row by row; the cost is the "Cycle cost (incl. opcode fetch)", R85. -/
def Form.row : Form → CatalogRow
  | .ldaImm => ⟨"LDA #imm", .immediate, opcLdaImm, 2⟩
  | .ldaZp => ⟨"LDA zp", .zeroPage, config.opcLdaZp, 3⟩
  | .ldaZpX => ⟨"LDA zp,X", .zeroPageX, config.opcLdaZpX, 4⟩
  | .ldxImm => ⟨"LDX #imm", .immediate, config.opcLdxImm, 2⟩
  | .ldyImm => ⟨"LDY #imm", .immediate, config.opcLdyImm, 2⟩
  | .jsr => ⟨"JSR abs", .absolute, opcJsr, 6⟩
  | .rts => ⟨"RTS", .implied, opcRts, 6⟩
  | .clc => ⟨"CLC", .implied, config.opcClc, 1⟩
  | .sec => ⟨"SEC", .implied, config.opcSec, 1⟩
  | .tax => ⟨"TAX", .implied, opcTax, 1⟩
  | .tay => ⟨"TAY", .implied, config.opcTay, 1⟩
  | .txa => ⟨"TXA", .implied, config.opcTxa, 1⟩
  | .tya => ⟨"TYA", .implied, config.opcTya, 1⟩

/-- The 13 forms, in the order of R53. -/
def Form.all : List Form :=
  [.ldaImm, .ldaZp, .ldaZpX, .ldxImm, .ldyImm, .jsr, .rts, .clc, .sec, .tax, .tay, .txa, .tya]

/-- The whole catalog. -/
def catalog : List CatalogRow := Form.all.map Form.row

/-- The format each addressing mode uses (R58). -/
def Mode.format : Mode → Format
  | .implied => .imp
  | .immediate => .op8
  | .zeroPage => .op8
  | .zeroPageX => .op8
  | .absolute => .op16

/-- "Lengths: `IMP` 1, `OP8` 2, `OP16` 3" (R56). -/
def Format.length : Format → Nat
  | .imp => 1
  | .op8 => 2
  | .op16 => 3

/-- A form's opcode byte. -/
def Form.opcode (f : Form) : Byte := f.row.opcode

/-- A form's cost, "incl. opcode fetch" (R85). -/
def Form.cost (f : Form) : Nat := f.row.cost

/-- A form's length in bytes. -/
def Form.length (f : Form) : Nat := f.row.mode.format.length

/-- The catalog row an instruction belongs to. -/
def Instr.form : Instr → Form
  | .ldaImm _ => .ldaImm
  | .ldaZp _ => .ldaZp
  | .ldaZpX _ => .ldaZpX
  | .ldxImm _ => .ldxImm
  | .ldyImm _ => .ldyImm
  | .jsr _ => .jsr
  | .rts => .rts
  | .clc => .clc
  | .sec => .sec
  | .tax => .tax
  | .tay => .tay
  | .txa => .txa
  | .tya => .tya

/-- Catalog lookup: "an exact match on all eight bits of the opcode byte" (R54). -/
def lookup (op : Byte) : Option Form := Form.all.find? fun f => f.opcode == op

/-- The length a first byte shows (R56); an unrecognised byte counts as 1 for a static disassembler, "which is what `PC`
shows after the halt". -/
def instrLength (op : Byte) : Nat :=
  match lookup op with
  | some f => f.length
  | none => 1

/-- Why bytes do not decode. -/
inductive DecodeError where
  /-- There is no byte at all. -/
  | noBytes
  /-- R55: the first byte is not one of the 13. -/
  | unrecognizedOpcode (op : Byte)
  /-- The bytes end inside the operand of this form. Never seen by a fetch, which always has three bytes. -/
  | truncated (f : Form)
  deriving DecidableEq, Repr

/-- What a decoder answers: an instruction and the bytes after it, or why not. -/
abbrev Decoded := Except DecodeError (Instr × List Byte)

/-- Format IMP: no operand (R51). -/
def operandNone (i : Instr) (rest : List Byte) : Decoded := .ok (i, rest)

/-- Format OP8: byte 1 is `operand8` (R51, R52). -/
def operand8 (f : Form) (mk : Byte → Instr) : List Byte → Decoded
  | b1 :: rest => .ok (mk b1, rest)
  | [] => .error (.truncated f)

/-- Format OP16: byte 1 is `operand_lo`, byte 2 is `operand_hi` (R51); `target = {operand_hi, operand_lo}` (R52). -/
def operand16 (f : Form) (mk : Word → Instr) : List Byte → Decoded
  | lo :: hi :: rest => .ok (mk (wordOf hi lo), rest)
  | _ => .error (.truncated f)

/-- Operand assembly, form by form (R52, R53). -/
def decodeOperand : Form → List Byte → Decoded
  | .ldaImm, rest => operand8 .ldaImm .ldaImm rest
  | .ldaZp, rest => operand8 .ldaZp .ldaZp rest
  | .ldaZpX, rest => operand8 .ldaZpX .ldaZpX rest
  | .ldxImm, rest => operand8 .ldxImm .ldxImm rest
  | .ldyImm, rest => operand8 .ldyImm .ldyImm rest
  | .jsr, rest => operand16 .jsr .jsr rest
  | .rts, rest => operandNone .rts rest
  | .clc, rest => operandNone .clc rest
  | .sec, rest => operandNone .sec rest
  | .tax, rest => operandNone .tax rest
  | .tay, rest => operandNone .tay rest
  | .txa, rest => operandNone .txa rest
  | .tya, rest => operandNone .tya rest

/-- The decoder (R50): it looks the first byte up whole and takes the length from the row. Total on any bytes. -/
def decode : List Byte → Decoded
  | [] => .error .noBytes
  | op :: rest =>
    match lookup op with
    | none => .error (.unrecognizedOpcode op)
    | some f => decodeOperand f rest

/-- The encoder: the bytes of an instruction at rising addresses, from the formats of R51 and the opcodes of R53. -/
def encode : Instr → List Byte
  | .ldaImm imm => [Form.opcode .ldaImm, imm]
  | .ldaZp zp => [Form.opcode .ldaZp, zp]
  | .ldaZpX zp => [Form.opcode .ldaZpX, zp]
  | .ldxImm imm => [Form.opcode .ldxImm, imm]
  | .ldyImm imm => [Form.opcode .ldyImm, imm]
  | .jsr target => [Form.opcode .jsr, loByte target, hiByte target]
  | .rts => [Form.opcode .rts]
  | .clc => [Form.opcode .clc]
  | .sec => [Form.opcode .sec]
  | .tax => [Form.opcode .tax]
  | .tay => [Form.opcode .tay]
  | .txa => [Form.opcode .txa]
  | .tya => [Form.opcode .tya]

/-- `ins` of R51: bytes seen as one little-endian integer, byte 0 in bits 7:0. -/
def insOfBytes : List Byte → Nat
  | [] => 0
  | b :: rest => b.toNat + 256 * insOfBytes rest

/-- The three bytes, at rising addresses, of an instruction whose table word of `nbits` bits is `w`; every bit above
`nbits` is 0. Three is the longest instruction (R50). -/
def tableBytes (nbits w : Nat) : List Byte :=
  let ins := w % 2 ^ nbits
  [BitVec.ofNat 8 ins, BitVec.ofNat 8 (ins / 2 ^ 8), BitVec.ofNat 8 (ins / 2 ^ 16)]

/-- The instruction this decoder reads from a word numbered as spec/opcode_table.json numbers it (R51's `ins`). -/
def decodeTableWord (nbits w : Nat) : Option Instr :=
  match decode (tableBytes nbits w) with
  | .ok (i, _) => some i
  | .error _ => none

/-- One hexadecimal digit, for R57's text. -/
def hexDigit (n : Nat) : Char := (Nat.digitChar n).toUpper

/-- `$nn` of R57. -/
def hexByte (b : Byte) : String := String.ofList ['$', hexDigit (b.toNat / 16), hexDigit (b.toNat % 16)]

/-- `$hhll` of R57. -/
def hexWord (w : Word) : String :=
  String.ofList ['$', hexDigit (w.toNat / 4096), hexDigit (w.toNat / 256 % 16), hexDigit (w.toNat / 16 % 16),
    hexDigit (w.toNat % 16)]

/-- An instruction in the assembler text of R57. PRESUMED (the 6502 family's, D11: log 22): names only, no behaviour
depends on it. -/
def Instr.asm : Instr → String
  | .ldaImm imm => "LDA #" ++ hexByte imm
  | .ldaZp zp => "LDA " ++ hexByte zp
  | .ldaZpX zp => "LDA " ++ hexByte zp ++ ",X"
  | .ldxImm imm => "LDX #" ++ hexByte imm
  | .ldyImm imm => "LDY #" ++ hexByte imm
  | .jsr target => "JSR " ++ hexWord target
  | .rts => "RTS"
  | .clc => "CLC"
  | .sec => "SEC"
  | .tax => "TAX"
  | .tay => "TAY"
  | .txa => "TXA"
  | .tya => "TYA"

end Sys2Proof
end

