-- ==== Sys2Proof/Machine/State.lean ====
section
/-! DEFINITION. The state of the machine: the tuple of R10 of 10_state.md "and nothing else", as plain data; its value
after reset (R23); the reasons of a fault and of a refusal. -/

namespace Sys2Proof.Machine

/-- The seven independent 1-bit flags of R15. There is no packed status byte and no bit order (R18, D19). -/
structure Flags where
  /-- Carry. -/
  c : Bool
  /-- Zero. -/
  z : Bool
  /-- Interrupt-Disable: masks nothing (R148). -/
  i : Bool
  /-- Decimal: inert (R16). -/
  d : Bool
  /-- Break: inert (R148). -/
  b : Bool
  /-- Overflow: inert (R16). -/
  v : Bool
  /-- Negative. -/
  n : Bool
  deriving DecidableEq, Repr

/-- The four halt reasons of R140. -/
inductive HaltReason where
  /-- CYC was 0 at the top of a loop iteration (R78, R143): the normal end of a run. -/
  | budgetExhausted
  /-- The budget left after the opcode fetch does not cover the instruction (R81, R142): an early end, not an error. -/
  | insufficientBudget
  /-- The opcode byte is not in the catalog (R80, R141): an error. -/
  | unrecognizedOpcode
  /-- A stack primitive was about to leave the stack page (R75, R144): an error. -/
  | stackFault
  deriving DecidableEq, Repr

/-- The six values of HALT (R22, R140). -/
inductive HaltStatus where
  /-- `None`: no run since reset. -/
  | none
  /-- `Running`: a run is in progress. -/
  | running
  /-- The last run stopped for this reason. -/
  | halted (reason : HaltReason)
  deriving DecidableEq, Repr

/-- Memory: the cells that do not hold 0x00, as (address, byte) pairs with strictly rising addresses below 65536. The
canonical form is `Memory.wf` (Machine/Memory.lean). -/
abbrev Memory := List Host.Cell

/-- R10: the whole state of the machine. -/
structure State where
  /-- Accumulator (R11). -/
  a : Byte
  /-- Index register X (R11). -/
  x : Byte
  /-- Index register Y (R11). -/
  y : Byte
  /-- Program counter: address of the next instruction byte to fetch (R12). -/
  pc : Word
  /-- Stack pointer: the absolute address of the next free stack slot (R14). -/
  sp : Word
  /-- C, Z, I, D, B, V, N (R15). -/
  flags : Flags
  /-- The 65536 byte cells (R19). -/
  mem : Memory
  /-- Remaining cycle budget of the current run, a natural number (R20). -/
  cyc : Nat
  /-- The opcode byte most recently fetched by the dispatch loop, or no value (R21). -/
  ir : Option Byte
  /-- Run status and halt reason (R22). -/
  halt : HaltStatus
  deriving DecidableEq, Repr

/-- The reasons of a fault. The step raises none of them: a halt is a NEXT state with HALT written (R145; log 1). -/
inductive Fault where
  /-- Raised by `Machine.settle` (Safety.lean) for a run that ended with UnrecognizedOpcode: D21 classes it as a fault.
  Safe. -/
  | unrecognizedOpcode
  /-- Raised by `Machine.settle` (Safety.lean) for a run that ended with StackFault: D21 classes it as a fault. Safe. -/
  | stackFault
  deriving DecidableEq, Repr

/-- The reasons of a refusal. -/
inductive Refusal where
  /-- The arm of exec of an instruction that has no meaning yet. Safe. No arm raises it. -/
  | notModelled (mnemonic : String)
  /-- Raised by `hostMove`: any host operation but Reset() before the first Reset() (R170, D20). Safe. -/
  | beforeFirstReset
  /-- Raised by `hostMove`: a host operation while a run is in progress (R44, D15). Safe. -/
  | processorRunning
  /-- Raised by `hostWriteWord`: write_word at 0xFFFF (R44, D8). Safe. -/
  | writeWordAtTop
  /-- Raised by `hostObserve`: reading IR before the first opcode fetch, which the spec refuses (R21, U10, D16). Safe. -/
  | irHoldsNoValue
  /-- Raised by `settle` (Safety.lean): there is no ended run to judge, none having happened or one being in progress.
  Safe. -/
  | noEndedRun
  deriving DecidableEq, Repr

/-- What a step, or a meaning, answers. -/
abbrev Result := Host.Outcome State Fault Refusal

/-- All seven flags 0 (R23: "clears all flags"). -/
def Flags.cleared : Flags := ⟨false, false, false, false, false, false, false⟩

/-- The machine right after Reset() (R23, R170). SP_RESET is the spec's decision D4 (log 5); CYC = 0, IR = no value and
HALT = None are its decisions D16 and D20 (log 11). Every memory cell is 0x00, so none is listed. -/
def State.reset : State where
  a := 0x00
  x := 0x00
  y := 0x00
  pc := resetPc
  sp := config.spReset
  flags := Flags.cleared
  mem := []
  cyc := 0
  ir := Option.none
  halt := HaltStatus.none

end Sys2Proof.Machine
end

