-- ==== Sys2Proof/Machine/Flags.lean ====
section
/-! DEFINITION. Every flag computation the spec gives: R76 of 40_engine.md (Z and N), R120 and R121 of 43_flag.md (C). -/

namespace Sys2Proof.Machine

/-- `SetZN(v)` of R76: "Zero flag = 1 iff value == 0; Negative flag = 1 iff the high bit (0x80) of value is set". It writes
only Z and N, and spends no cycle. -/
def setZN (v : Byte) (f : Flags) : Flags := { f with z := v == 0x00, n := v.msb }

/-- `C <- bit` (R120, R121): C only. -/
def setCarry (bit : Bool) (f : Flags) : Flags := { f with c := bit }

end Sys2Proof.Machine
end

