-- ==== Sys2Proof/Machine/Memory.lean ====
section
/-! DEFINITION. Memory reads and writes (R30, R31, R36 of 20_memory.md) over the canonical list of cells. -/

namespace Sys2Proof.Machine

/-- What an address that is not listed reads as: 0x00. R23: every cell is 0 after reset; R178: "Memory that was never
written holds 0x00". -/
def Memory.unlisted : Byte := 0x00

/-- The byte at a cell number. -/
def Memory.get (k : Nat) : Memory → Byte
  | [] => Memory.unlisted
  | (k', v) :: m => if k = k' then v else Memory.get k m

/-- Storing one byte at a cell number, keeping the canonical form: storing what an unlisted address reads as takes the
entry out. -/
def Memory.set (k : Nat) (v : Byte) : Memory → Memory
  | [] => if v = Memory.unlisted then [] else [(k, v)]
  | (k', v') :: m =>
    if k < k' then (if v = Memory.unlisted then (k', v') :: m else (k, v) :: (k', v') :: m)
    else if k = k' then (if v = Memory.unlisted then m else (k, v) :: m)
    else (k', v') :: Memory.set k v m

/-- `MemRead(addr, 1)`: total, no side effect (R31, R36). -/
def Memory.read (m : Memory) (addr : Word) : Byte := Memory.get addr.toNat m

/-- `MemWrite(addr, 1, v)`: sets that one cell (R31, R36). -/
def Memory.write (m : Memory) (addr : Word) (v : Byte) : Memory := Memory.set addr.toNat v m

/-- Every listed cell number lies above `lo`, the numbers rise strictly, each is one of the 65536 addresses (R30), and no
listed byte is the one an unlisted address reads as. -/
def Memory.sortedFrom (lo : Nat) : Memory → Bool
  | [] => true
  | (k, v) :: m => decide (lo ≤ k) && decide (k < 65536) && decide (v ≠ Memory.unlisted) && Memory.sortedFrom (k + 1) m

/-- The canonical form of memory. -/
def Memory.wf (m : Memory) : Bool := Memory.sortedFrom 0 m

end Sys2Proof.Machine
end

