-- ==== Sys2Proof/Machine/Operands.lean ====
section
/-! DEFINITION. Effective addresses of the addressing modes (R52, R58 of 30_encoding.md; the table of 41_load.md). The
immediate and absolute operands are the instruction's own byte and word, assembled by the decoder. -/

namespace Sys2Proof.Machine

/-- Zero page: `ea = zext_16(operand8)`, in 0x0000..0x00FF (R52, R101). -/
def zeroPageEa (zp : Byte) : Word := zext16 zp

/-- Zero page,X: `ea = zext_16(operand8 +8 X)`: the sum is truncated to 8 bits before it is zero-extended (R52, R102). -/
def zeroPageXEa (zp x : Byte) : Word := zext16 (zp + x)

/-- `InStackPage(a)` of R75, "computed on mathematical integers". -/
def inStackPage (a : Int) : Bool :=
  decide ((config.stackPageBase.toNat : Int) ≤ a)
    && decide (a ≤ (config.stackPageBase.toNat : Int) + ((stackPageSize : Int) - 1))

/-- The check PushWord makes: SP and SP - 1 lie in the stack page (R73, R75). -/
def canPush (sp : Word) : Bool := inStackPage sp.toNat && inStackPage ((sp.toNat : Int) - 1)

/-- The check PopWord makes: SP + 1 and SP + 2 lie in the stack page (R74, R75). -/
def canPop (sp : Word) : Bool := inStackPage ((sp.toNat : Int) + 1) && inStackPage ((sp.toNat : Int) + 2)

end Sys2Proof.Machine
end

