-- ==== Sys2Proof/Machine/Ops.lean ====
section
/-! DEFINITION. The named operations every instruction is built from: the primitives of 40_engine.md R70 to R74 and R86,
the budget check R81, halting (R145 of 60_exceptions.md) and its counterpart, the start of a run (R77, R149). -/

namespace Sys2Proof.Machine

/-! ### Halting and running again -/

/-- `raise Halt(reason)` as a state: HALT <- reason, and nothing else changes (R145). -/
def haltWith (reason : HaltReason) (s : State) : State := { s with halt := .halted reason }

/-- TAKING AN EXCEPTION: the one operation by which a halt is taken (R145). It saves nothing, goes nowhere and changes no
mode; the answer is a NEXT state (log 1). -/
def raiseHalt (reason : HaltReason) (s : State) : Result := .next (haltWith reason s)

/-- THE RETURN FROM IT: the host's next Execute (R149) begins a run from the halted state: CYC <- budget, HALT <- Running
(R77). Nothing is restored, since nothing was saved. -/
def beginRun (budget : Nat) (s : State) : State := { s with cyc := budget, halt := .running }

/-- The code of a value of HALT; `Running` has none (R140, D13: log 27). -/
def haltCode : HaltStatus → Option Nat
  | .none => some 0
  | .running => Option.none
  | .halted .budgetExhausted => some 1
  | .halted .insufficientBudget => some 2
  | .halted .unrecognizedOpcode => some 3
  | .halted .stackFault => some 4

/-! ### Cycles and fetching -/

/-- `Spend(n)`: CYC <- CYC - n and nothing else (R86). Every caller has established CYC >= n (R81, `withBudget`). -/
def spend (n : Nat) (s : State) : State := { s with cyc := s.cyc - n }

/-- What fetching n instruction bytes does to the state: PC <- PC +16 n, CYC <- CYC - n (R70, R71). -/
def advance (n : Nat) (s : State) : State := { s with pc := s.pc + BitVec.ofNat 16 n, cyc := s.cyc - n }

/-- `FetchByte()` (R70). -/
def fetchByte (s : State) : Byte × State := (s.mem.read s.pc, advance 1 s)

/-- `FetchWord()` (R71): the low byte first, at the lower address. -/
def fetchWord (s : State) : Word × State := (wordOf (s.mem.read (s.pc + 1)) (s.mem.read s.pc), advance 2 s)

/-- `ReadByte(addr)` (R72): PC does not move. -/
def readByte (addr : Word) (s : State) : Byte × State := (s.mem.read addr, spend 1 s)

/-! ### The stack -/

/-- `PushWord(v)` (R73): high byte at SP, then low byte at SP - 1, SP <- SP - 2, CYC <- CYC - 2; `none` where the
stack-page check fails, with no effect at all (R75). -/
def pushWord (v : Word) (s : State) : Option State :=
  if canPush s.sp then
    some { s with
      mem := (s.mem.write s.sp (hiByte v)).write (s.sp - 1) (loByte v)
      sp := s.sp - 2
      cyc := s.cyc - 2 }
  else Option.none

/-- `PopWord()` (R74): low byte at SP + 1, high byte at SP + 2, SP <- SP + 2, CYC <- CYC - 2; the popped cells keep their
contents; `none` where the stack-page check fails, with no effect at all (R75). -/
def popWord (s : State) : Option (Word × State) :=
  if canPop s.sp then
    some (wordOf (s.mem.read (s.sp + 2)) (s.mem.read (s.sp + 1)), { s with sp := s.sp + 2, cyc := s.cyc - 2 })
  else Option.none

/-! ### Registers -/

/-- `A <- v; SetZN(v)` (R17, R76). -/
def loadA (v : Byte) (s : State) : State := { s with a := v, flags := setZN v s.flags }

/-- `X <- v; SetZN(v)` (R17, R76). -/
def loadX (v : Byte) (s : State) : State := { s with x := v, flags := setZN v s.flags }

/-- `Y <- v; SetZN(v)` (R17, R76). -/
def loadY (v : Byte) (s : State) : State := { s with y := v, flags := setZN v s.flags }

/-! ### The budget check -/

/-- Step 3 of the loop (R81) around an instruction's own rule: after the opcode fetch, if CYC < cost - 1 halt with
InsufficientBudget and do nothing else; otherwise run the rule. It stands in every meaning, so that a meaning has the
spec's effect at every budget and no primitive ever subtracts more cycles than there are (log 3). -/
def withBudget (f : Form) (rule : State → Result) (s : State) : Result :=
  if s.cyc < f.cost - 1 then raiseHalt .insufficientBudget s else rule s

end Sys2Proof.Machine
end

