-- ==== Sys2Proof/Machine/Carry.lean ====
section
/-! DEFINITION. The flag instructions (43_flag.md): the opcode fetch is the whole cost. -/

namespace Sys2Proof.Machine

/-- CLC (R120): C <- 0. -/
def execClc (s : State) : Result :=
  withBudget .clc (fun s => .next { s with flags := setCarry false s.flags }) s

/-- SEC (R121): C <- 1. -/
def execSec (s : State) : Result :=
  withBudget .sec (fun s => .next { s with flags := setCarry true s.flags }) s

end Sys2Proof.Machine
end

