-- ==== Sys2Proof/Machine/Load.lean ====
section
/-! DEFINITION. The load instructions (41_load.md). Each meaning starts after the opcode fetch; the operand byte is the
instruction's own, read by the decoder at the address FetchByte would read (log 20). -/

namespace Sys2Proof.Machine

/-- LDA immediate (R100). -/
def execLdaImm (imm : Byte) (s : State) : Result :=
  withBudget .ldaImm (fun s => .next (loadA imm (advance 1 s))) s

/-- LDA zero page (R101). -/
def execLdaZp (zp : Byte) (s : State) : Result :=
  withBudget .ldaZp (fun s =>
    let r := readByte (zeroPageEa zp) (advance 1 s)
    .next (loadA r.1 r.2)) s

/-- LDA zero page,X (R102): the index addition's cycle is spent between the operand fetch and the data read (R86). -/
def execLdaZpX (zp : Byte) (s : State) : Result :=
  withBudget .ldaZpX (fun s =>
    let r := readByte (zeroPageXEa zp s.x) (spend 1 (advance 1 s))
    .next (loadA r.1 r.2)) s

/-- LDX immediate (R103). -/
def execLdxImm (imm : Byte) (s : State) : Result :=
  withBudget .ldxImm (fun s => .next (loadX imm (advance 1 s))) s

/-- LDY immediate (R104). -/
def execLdyImm (imm : Byte) (s : State) : Result :=
  withBudget .ldyImm (fun s => .next (loadY imm (advance 1 s))) s

end Sys2Proof.Machine
end

