-- ==== Sys2Proof/Machine/Subroutine.lean ====
section
/-! DEFINITION. Subroutine call and return (42_subroutine.md). -/

namespace Sys2Proof.Machine

/-- JSR absolute (R110): the operand is fetched, then PC -16 1 (the address of the JSR's last byte) is pushed, then PC
takes the target, then the internal cycle is spent. A push that leaves the stack page halts with the operand fetched and
nothing else done (R75, R144). -/
def execJsr (target : Word) (s : State) : Result :=
  withBudget .jsr (fun s =>
    match pushWord ((advance 2 s).pc - 1) (advance 2 s) with
    | none => raiseHalt .stackFault (advance 2 s)
    | some pushed => .next (spend 1 { pushed with pc := target })) s

/-- RTS (R111): PC takes the popped word +16 1, then three internal cycles are spent. A pop that leaves the stack page
halts with nothing done (R75, R144). -/
def execRts (s : State) : Result :=
  withBudget .rts (fun s =>
    match popWord s with
    | none => raiseHalt .stackFault s
    | some (addr, popped) => .next (spend 3 { popped with pc := addr + 1 })) s

end Sys2Proof.Machine
end

