-- ==== Sys2Proof/Machine/Transfer.lean ====
section
/-! DEFINITION. The register transfers (44_transfer.md): the opcode fetch is the whole cost. -/

namespace Sys2Proof.Machine

/-- TAX (R130): X <- A; SetZN(X). -/
def execTax (s : State) : Result := withBudget .tax (fun s => .next (loadX s.a s)) s

/-- TAY (R131): Y <- A; SetZN(Y). -/
def execTay (s : State) : Result := withBudget .tay (fun s => .next (loadY s.a s)) s

/-- TXA (R132): A <- X; SetZN(A). -/
def execTxa (s : State) : Result := withBudget .txa (fun s => .next (loadA s.x s)) s

/-- TYA (R133): A <- Y; SetZN(A). -/
def execTya (s : State) : Result := withBudget .tya (fun s => .next (loadA s.y s)) s

end Sys2Proof.Machine
end

