-- ==== Sys2Proof/Machine/Loop.lean ====
section
/-! DEFINITION. The dispatch loop (R77 to R84, R88, R89 of 40_engine.md). -/

namespace Sys2Proof.Machine

/-- Step 1, the opcode fetch: `op <- FetchByte(); IR <- op` (R79). -/
def fetchOpcode (s : State) : State :=
  let r := fetchByte s
  { r.2 with ir := some r.1 }

/-- The three bytes from PC on, modulo 2^16: as many as the longest instruction has (R50, R13). -/
def instrBytes (s : State) : List Byte := [s.mem.read s.pc, s.mem.read (s.pc + 1), s.mem.read (s.pc + 2)]

/-- One iteration of the loop, R78 to R82, which is the machine's step (R83): the loop condition, the opcode fetch, the
catalog lookup, then the budget check and the instruction's rule (both in exec). While the Processor is not running
nothing happens (R145, R158; log 2). -/
def loopIteration (s : State) : Result :=
  if s.halt = .running then
    if s.cyc = 0 then raiseHalt .budgetExhausted s
    else
      match decode (instrBytes s) with
      | .error _ => raiseHalt .unrecognizedOpcode (fetchOpcode s)
      | .ok (i, _) => exec i (fetchOpcode s)
  else .next s

/-- The loop taken n times. -/
def runLoop : Nat → State → Result
  | 0, s => .next s
  | n + 1, s =>
    match loopIteration s with
    | .next t => runLoop n t
    | .fault r => .fault r
    | .refused r => .refused r

/-- `Execute(budget)` as a whole, a function of the state and the budget (R77, R83, R90). budget + 1 iterations always
reach the halt: each but the last spends at least one cycle (R84; log 25). -/
def execute (budget : Nat) (s : State) : Result := runLoop (budget + 1) (beginRun budget s)

/-- Bytes stored at rising addresses from `addr` on, modulo 2^16, the first one first. -/
def storeBytes : List Byte → Word → Memory → Memory
  | [], _, m => m
  | b :: rest, addr, m => storeBytes rest (addr + 1) (m.write addr b)

/-- What the host's load and Execute amount to for one instruction: its bytes stored at PC, a run in progress, and a budget
that covers any instruction (6 is the greatest cost of R85). A greater budget is kept (log 17). -/
def placeInstruction (bytes : List Byte) (s : State) : State :=
  { s with mem := storeBytes bytes s.pc s.mem, cyc := max s.cyc 6, halt := .running }

end Sys2Proof.Machine
end

