-- ==== Sys2Proof/Machine/Step.lean ====
section
/-! DEFINITION. The machine's step, and the placing of one instruction where the step fetches. -/

namespace Sys2Proof.Machine

/-- One step: one iteration of the dispatch loop (R83, D18). -/
def step (s : State) : Host.Outcome State Fault Refusal := loopIteration s

/-- `s` with the instruction of table word `w` (of `nbits` bits) placed where the next step fetches (log 17). -/
def State.withFetchWord (s : State) (nbits w : Nat) : State := placeInstruction (tableBytes nbits w) s

end Sys2Proof.Machine
end

