-- ==== Sys2Proof/Machine/Accesses.lean ====
section
/-! DEFINITION. The memory accesses of one loop iteration, in the order the spec gives them (the table of R35 of
20_memory.md). A list computed from the state, not state itself (log 21). -/

namespace Sys2Proof.Machine

/-- One access of one byte (R35). -/
inductive Access where
  | read (addr : Word)
  | write (addr : Word) (v : Byte)
  deriving DecidableEq, Repr

/-- An instruction's accesses after its opcode has been read, where the budget covers it (R35). `s` is the state before
the opcode fetch. -/
def operandAccesses (i : Instr) (s : State) : List Access :=
  match i with
  | .ldaImm _ => [.read (s.pc + 1)]
  | .ldxImm _ => [.read (s.pc + 1)]
  | .ldyImm _ => [.read (s.pc + 1)]
  | .ldaZp zp => [.read (s.pc + 1), .read (zeroPageEa zp)]
  | .ldaZpX zp => [.read (s.pc + 1), .read (zeroPageXEa zp s.x)]
  | .jsr _ =>
    [.read (s.pc + 1), .read (s.pc + 2)]
      ++ (if canPush s.sp then [.write s.sp (hiByte (s.pc + 2)), .write (s.sp - 1) (loByte (s.pc + 2))] else [])
  | .rts => if canPop s.sp then [.read (s.sp + 1), .read (s.sp + 2)] else []
  | .clc => []
  | .sec => []
  | .tax => []
  | .tay => []
  | .txa => []
  | .tya => []

/-- All accesses of one loop iteration: none if the Processor is not running or its budget is 0; else the opcode, and the
instruction's own where it is recognised and its budget suffices (R35, R78 to R82). -/
def iterationAccesses (s : State) : List Access :=
  if s.halt = .running ∧ s.cyc ≠ 0 then
    .read s.pc ::
      (match decode (instrBytes s) with
      | .error _ => []
      | .ok (i, _) => if s.cyc < i.form.cost then [] else operandAccesses i s)
  else []

/-- The addresses read. -/
def readsOf : List Access → List Word
  | [] => []
  | .read addr :: rest => addr :: readsOf rest
  | .write _ _ :: rest => readsOf rest

/-- Memory after the writes, done in order. -/
def applyWrites : List Access → Memory → Memory
  | [], m => m
  | .read _ :: rest, m => applyWrites rest m
  | .write addr v :: rest, m => applyWrites rest (m.write addr v)

end Sys2Proof.Machine
end

