-- ==== Sys2Proof/Machine/HostMoves.lean ====
section
/-! DEFINITION. What the host can do to the machine: the whole table of R173 of 70_reset_and_hazards.md, with the memory
operations of R44 of 20_memory.md. The host acts between runs only; its moves are beside the step, not part of it
(log 13). -/

namespace Sys2Proof.Machine

/-- The state the host may observe, one name each (R173, R157). -/
inductive Observable where
  | a
  | x
  | y
  | pc
  | sp
  | flagC
  | flagZ
  | flagI
  | flagD
  | flagB
  | flagV
  | flagN
  | cyc
  | ir
  | halt
  deriving DecidableEq, Repr

/-- The seven operations of R173. -/
inductive HostOp where
  /-- `Reset()` (R170). -/
  | reset
  /-- `write(address, byte)` (R44). -/
  | write (addr : Word) (v : Byte)
  /-- `write_word(value, address)` (R44). -/
  | writeWord (value addr : Word)
  /-- `read(address)` (R44). -/
  | read (addr : Word)
  /-- `initialize()` (R44). -/
  | zeroMemory
  /-- `Execute(budget)` (R77). -/
  | execute (budget : Nat)
  /-- Observe one piece of the state (R173). -/
  | observe (what : Observable)
  deriving DecidableEq, Repr

/-- What the host gets back (R173). -/
inductive HostReply where
  | nothing
  | byte (v : Byte)
  | word (w : Word)
  | flag (bit : Bool)
  | count (n : Nat)
  | status (h : HaltStatus)
  deriving DecidableEq, Repr

/-- What a host operation answers: the state after it and the reply, or a refusal. -/
abbrev HostResult := Host.Outcome (State × HostReply) Fault Refusal

/-- `write(address, byte)`: MEM[address] <- byte (R44). -/
def hostWrite (addr : Word) (v : Byte) (s : State) : HostResult :=
  .next ({ s with mem := s.mem.write addr v }, .nothing)

/-- `write_word(value, address)`: low byte first, at address and address + 1; refused at 0xFFFF (R44, D8). -/
def hostWriteWord (value addr : Word) (s : State) : HostResult :=
  if addr = 0xFFFF then .refused .writeWordAtTop
  else .next ({ s with mem := (s.mem.write addr (loByte value)).write (addr + 1) (hiByte value) }, .nothing)

/-- `read(address)`: no effect (R44). -/
def hostRead (addr : Word) (s : State) : HostResult := .next (s, .byte (s.mem.read addr))

/-- `initialize()`: "fills every cell with 0" (R44). -/
def hostZeroMemory (s : State) : HostResult := .next ({ s with mem := [] }, .nothing)

/-- `Execute(budget)`: runs to the halt and gives its reason back (R77, R173). -/
def hostExecute (budget : Nat) (s : State) : HostResult :=
  match execute budget s with
  | .next t => .next (t, .status t.halt)
  | .fault r => .fault r
  | .refused r => .refused r

/-- Observe: no effect; IR while it holds no value is refused (R21, R173, U10: log 11). -/
def hostObserve (what : Observable) (s : State) : HostResult :=
  match what with
  | .a => .next (s, .byte s.a)
  | .x => .next (s, .byte s.x)
  | .y => .next (s, .byte s.y)
  | .pc => .next (s, .word s.pc)
  | .sp => .next (s, .word s.sp)
  | .flagC => .next (s, .flag s.flags.c)
  | .flagZ => .next (s, .flag s.flags.z)
  | .flagI => .next (s, .flag s.flags.i)
  | .flagD => .next (s, .flag s.flags.d)
  | .flagB => .next (s, .flag s.flags.b)
  | .flagV => .next (s, .flag s.flags.v)
  | .flagN => .next (s, .flag s.flags.n)
  | .cyc => .next (s, .count s.cyc)
  | .halt => .next (s, .status s.halt)
  | .ir =>
    match s.ir with
    | some op => .next (s, .byte op)
    | none => .refused .irHoldsNoValue

/-- `Reset()`: the state of R170, whatever the state was. -/
def hostReset : HostResult := .next (State.reset, .nothing)

/-- A host operation on a machine that has been reset and is not running. -/
def hostMoveStopped (op : HostOp) (s : State) : HostResult :=
  match op with
  | .reset => hostReset
  | .write addr v => hostWrite addr v s
  | .writeWord value addr => hostWriteWord value addr s
  | .read addr => hostRead addr s
  | .zeroMemory => hostZeroMemory s
  | .execute budget => hostExecute budget s
  | .observe what => hostObserve what s

/-- When a host operation is allowed (R173). `none` is the machine before its first Reset(), which has no state the spec
gives: only Reset() is available there (R170, D20; log 12). During a run there is no move (R44, D15). -/
def hostMove (op : HostOp) : Option State → HostResult
  | none =>
    match op with
    | .reset => hostReset
    | _ => .refused .beforeFirstReset
  | some s => if s.halt = .running then .refused .processorRunning else hostMoveStopped op s

end Sys2Proof.Machine
end

