-- ==== Sys2Proof/Safety.lean ====
section
/-! DEFINITION. What counts as a safe run, in the terms claims use: how an ended run is judged (D21, R180), and the
invariant of the machine from reset on (R14, R16, R17, R20 to R22, R141 to R144). -/

namespace Sys2Proof.Machine

/-- The Processor is executing (R22). -/
abbrev State.isRunning (s : State) : Prop := s.halt = .running

/-- An ended run as D21 and R180 class it: BudgetExhausted and InsufficientBudget are ends; UnrecognizedOpcode and
StackFault are faults, never final states of a good run. -/
def settle (s : State) : Result :=
  match s.halt with
  | .none => .refused .noEndedRun
  | .running => .refused .noEndedRun
  | .halted .budgetExhausted => .next s
  | .halted .insufficientBudget => .next s
  | .halted .unrecognizedOpcode => .fault .unrecognizedOpcode
  | .halted .stackFault => .fault .stackFault

/-- A good run: one that ended with every instruction it started performed (R180). -/
def endedWell (s : State) : Bool := decide (s.halt = .halted .budgetExhausted)

/-- R14: from SP_RESET, "`SP` always stays in the range `STACK_PAGE_BASE - 1 .. STACK_PAGE_BASE + 0xFF` and keeps the
parity of `SP_RESET`". -/
def spLegal (sp : Word) : Bool :=
  decide ((config.stackPageBase.toNat : Int) - 1 ≤ sp.toNat) && decide (sp.toNat ≤ config.stackPageBase.toNat + 0xFF)
    && decide (sp.toNat % 2 = config.spReset.toNat % 2)

/-- R16: `I = D = B = V = 0`; R17: Z and N are never both 1. -/
def flagsLegal (f : Flags) : Bool := !f.i && !f.d && !f.b && !f.v && !(f.z && f.n)

/-- What HALT says of CYC and IR: R23 (None), R143, R142, R141, R144. -/
def haltConsistent (s : State) : Bool :=
  match s.halt with
  | .none => decide (s.cyc = 0) && decide (s.ir = none)
  | .running => true
  | .halted .budgetExhausted => decide (s.cyc = 0)
  | .halted .insufficientBudget =>
    match s.ir.bind lookup with
    | some f => decide (s.cyc + 2 ≤ f.cost)
    | none => false
  | .halted .unrecognizedOpcode =>
    match s.ir with
    | some op => decide (lookup op = none)
    | none => false
  | .halted .stackFault =>
    (decide (s.ir = some opcJsr) && !canPush s.sp) || (decide (s.ir = some opcRts) && !canPop s.sp)

/-- The value an instruction of R17's nine leaves in its destination register; none for the other four. -/
def producedValue (i : Instr) (t : State) : Option Byte :=
  match i with
  | .ldaImm _ => some t.a
  | .ldaZp _ => some t.a
  | .ldaZpX _ => some t.a
  | .ldxImm _ => some t.x
  | .ldyImm _ => some t.y
  | .jsr _ => none
  | .rts => none
  | .clc => none
  | .sec => none
  | .tax => some t.x
  | .tay => some t.y
  | .txa => some t.a
  | .tya => some t.a

/-- Pushing words one after another, as nested calls do (R113, R179). -/
def pushAll : List Word → State → Option State
  | [], s => some s
  | v :: rest, s => (pushWord v s).bind (pushAll rest)

/-- The invariant of the machine from its first reset on. -/
def State.legal (s : State) : Bool := s.mem.wf && spLegal s.sp && flagsLegal s.flags && haltConsistent s

end Sys2Proof.Machine
end

