-- ==== Sys2Proof/Certificates/Slice0/Obligations.lean ====
section
/-! DEFINITION. The statements for the provers. `MEM[a]` of the spec is `s.mem.read a`. In the statements about `exec i s`,
`s` is the state after the opcode fetch, where the spec's instruction rules begin (R82); in those about `step s`, `s` is
the state before it. A rule that rests on one of the spec's own decisions (D<n>) is cited by its section, and the docstring
names the decision. Two decisions are under every statement: PC counts modulo 2^16 (D7: log 7) and CYC is a natural number
(D9: log 9). -/

open Sys2Proof Sys2Proof.Machine

/-! ### Encoding -/

/-- Words written out from R53 and the encoding vectors of 95_test_vectors.md. The bytes 0xB5, 0x18 are D10's (log 6). -/
def Obligations.CatalogWordsDecode : Prop :=
  decode [0xA9, 0x42] = .ok (.ldaImm 0x42, []) ∧ decode [0xB5, 0xFF] = .ok (.ldaZpX 0xFF, []) ∧
    decode [0x20, 0x34, 0x12] = .ok (.jsr 0x1234, []) ∧ decode [0x60] = .ok (.rts, []) ∧
    decode [0x18] = .ok (.clc, []) ∧ decode [0xAA] = .ok (.tax, []) ∧
    decode [0xEA] = .error (.unrecognizedOpcode 0xEA)

/-- Decoding and encoding agree in both directions, for every instruction, every operand and whatever follows. -/
def Obligations.DecodeAnswersExactlyTheEncodedInstruction : Prop :=
  ∀ (bytes : List Byte) (i : Instr) (rest : List Byte), decode bytes = .ok (i, rest) ↔ bytes = encode i ++ rest

/-- R51: an instruction's bytes as one little-endian integer, as the opcode table numbers it, decode to it. -/
def Obligations.TableWordOfEncodingDecodes : Prop :=
  ∀ i : Instr, decodeTableWord (8 * i.form.length) (insOfBytes (encode i)) = some i

/-- R52. The four opcode bytes that are named here are parameters (D10, log 6). -/
def Obligations.OperandsAreAssembledUnsigned : Prop :=
  (∀ (b : Byte) (rest : List Byte), decode (0xA9 :: b :: rest) = .ok (.ldaImm b, rest) ∧
    decode (config.opcLdxImm :: b :: rest) = .ok (.ldxImm b, rest) ∧
    decode (config.opcLdyImm :: b :: rest) = .ok (.ldyImm b, rest)) ∧
    (∀ (b : Byte) (rest : List Byte), decode (config.opcLdaZp :: b :: rest) = .ok (.ldaZp b, rest) ∧
      (zeroPageEa b).toNat = b.toNat) ∧
    (∀ (b x : Byte) (rest : List Byte), decode (config.opcLdaZpX :: b :: rest) = .ok (.ldaZpX b, rest) ∧
      (zeroPageXEa b x).toNat = (b.toNat + x.toNat) % 256) ∧
    (∀ (lo hi : Byte) (rest : List Byte), ∃ target : Word,
      decode (0x20 :: lo :: hi :: rest) = .ok (.jsr target, rest) ∧ target.toNat = hi.toNat * 256 + lo.toNat)

/-- The lengths of the three formats, and that the length comes from the first byte's catalog row alone. That an unrecognised
byte counts as 1 is the spec's own inference in R56. -/
def Obligations.LengthComesFromFirstByteAlone : Prop :=
  (Format.imp.length = 1 ∧ Format.op8.length = 2 ∧ Format.op16.length = 3) ∧
    (∀ (op : Byte) (tail : List Byte) (i : Instr) (rest : List Byte), decode (op :: tail) = .ok (i, rest) →
      (op :: tail).length = instrLength op + rest.length ∧ lookup op = some i.form) ∧
    (∀ (op : Byte) (tail : List Byte), 2 ≤ tail.length → lookup op ≠ none → ∃ i rest, decode (op :: tail) = .ok (i, rest)) ∧
    (∀ op : Byte, lookup op = none → instrLength op = 1)

/-- A byte that is none of the 13 is unrecognised, there are 243 of them, and fetching one halts the engine. That 0x00 and
0xEA are among them rests on the values of the nine opcode parameters (D10, log 6). -/
def Obligations.OtherOpcodeBytesHaltTheEngine : Prop :=
  (∀ op : Byte, lookup op = none ↔ op ∉ config.opcodes) ∧
    ((List.range 256).filter fun n => (lookup (BitVec.ofNat 8 n)).isNone).length = 243 ∧
    lookup 0x00 = none ∧ lookup 0xEA = none ∧
    (∀ s : State, s.halt = .running → s.cyc ≠ 0 → s.mem.read s.pc ∉ config.opcodes →
      ∃ t, step s = .next t ∧ t.halt = .halted .unrecognizedOpcode)

/-! ### Loads -/

/-- R100. PC counts as D7 has it (log 7). -/
def Obligations.LdaImmediateLoadsItsOperand : Prop :=
  (∀ (imm : Byte) (s : State), 1 ≤ s.cyc →
    exec (.ldaImm imm) s = .next { s with
      a := imm, flags := { s.flags with z := decide (imm = 0x00), n := imm.msb }, pc := s.pc + 1, cyc := s.cyc - 1 }) ∧
    (∀ s : State, s.halt = .running → s.mem.read s.pc = 0xA9 → 2 ≤ s.cyc →
      step s = .next { s with
        a := s.mem.read (s.pc + 1)
        flags := { s.flags with z := decide (s.mem.read (s.pc + 1) = 0x00), n := (s.mem.read (s.pc + 1)).msb }
        pc := s.pc + 2, cyc := s.cyc - 2, ir := some 0xA9 })

/-- R101. The opcode byte is the parameter OPC_LDA_ZP (D10, log 6); PC counts as D7 has it (log 7). -/
def Obligations.LdaZeroPageLoadsTheCell : Prop :=
  (∀ (zp : Byte) (s : State), 2 ≤ s.cyc →
    exec (.ldaZp zp) s = .next { s with
      a := s.mem.read (zext16 zp)
      flags := { s.flags with z := decide (s.mem.read (zext16 zp) = 0x00), n := (s.mem.read (zext16 zp)).msb }
      pc := s.pc + 1, cyc := s.cyc - 2 }) ∧
    (∀ (s : State) (v : Byte), s.halt = .running → s.mem.read s.pc = config.opcLdaZp → 3 ≤ s.cyc →
      v = s.mem.read (zext16 (s.mem.read (s.pc + 1))) →
      step s = .next { s with
        a := v, flags := { s.flags with z := decide (v = 0x00), n := v.msb }
        pc := s.pc + 2, cyc := s.cyc - 3, ir := some config.opcLdaZp })

/-- R102: the sum of base and X is truncated to 8 bits; X, and C, are not changed. The opcode byte is the parameter
OPC_LDA_ZPX (D10, log 6); PC counts as D7 has it (log 7). -/
def Obligations.LdaZeroPageXWrapsInTheZeroPage : Prop :=
  (∀ (zp : Byte) (s : State), 3 ≤ s.cyc →
    exec (.ldaZpX zp) s = .next { s with
      a := s.mem.read (zext16 (zp + s.x))
      flags := { s.flags with
        z := decide (s.mem.read (zext16 (zp + s.x)) = 0x00), n := (s.mem.read (zext16 (zp + s.x))).msb }
      pc := s.pc + 1, cyc := s.cyc - 3 }) ∧
    (∀ (s : State) (v : Byte), s.halt = .running → s.mem.read s.pc = config.opcLdaZpX → 4 ≤ s.cyc →
      v = s.mem.read (zext16 (s.mem.read (s.pc + 1) + s.x)) →
      step s = .next { s with
        a := v, flags := { s.flags with z := decide (v = 0x00), n := v.msb }
        pc := s.pc + 2, cyc := s.cyc - 4, ir := some config.opcLdaZpX })

/-- R103. The opcode byte is the parameter OPC_LDX_IMM (D10, log 6); PC counts as D7 has it (log 7). -/
def Obligations.LdxImmediateLoadsItsOperand : Prop :=
  (∀ (imm : Byte) (s : State), 1 ≤ s.cyc →
    exec (.ldxImm imm) s = .next { s with
      x := imm, flags := { s.flags with z := decide (imm = 0x00), n := imm.msb }, pc := s.pc + 1, cyc := s.cyc - 1 }) ∧
    (∀ s : State, s.halt = .running → s.mem.read s.pc = config.opcLdxImm → 2 ≤ s.cyc →
      step s = .next { s with
        x := s.mem.read (s.pc + 1)
        flags := { s.flags with z := decide (s.mem.read (s.pc + 1) = 0x00), n := (s.mem.read (s.pc + 1)).msb }
        pc := s.pc + 2, cyc := s.cyc - 2, ir := some config.opcLdxImm })

/-- R104. The opcode byte is the parameter OPC_LDY_IMM (D10, log 6); PC counts as D7 has it (log 7). -/
def Obligations.LdyImmediateLoadsItsOperand : Prop :=
  (∀ (imm : Byte) (s : State), 1 ≤ s.cyc →
    exec (.ldyImm imm) s = .next { s with
      y := imm, flags := { s.flags with z := decide (imm = 0x00), n := imm.msb }, pc := s.pc + 1, cyc := s.cyc - 1 }) ∧
    (∀ s : State, s.halt = .running → s.mem.read s.pc = config.opcLdyImm → 2 ≤ s.cyc →
      step s = .next { s with
        y := s.mem.read (s.pc + 1)
        flags := { s.flags with z := decide (s.mem.read (s.pc + 1) = 0x00), n := (s.mem.read (s.pc + 1)).msb }
        pc := s.pc + 2, cyc := s.cyc - 2, ir := some config.opcLdyImm })

/-! ### Subroutine call and return -/

/-- JSR where its push stays in the stack page: the address of its last byte is pushed, high byte at SP. Rests on SP being
an absolute address (D3), the page check (D5) and the internal cycle (D12). -/
def Obligations.JsrPushesItsLastByteAndJumps : Prop :=
  (∀ (target : Word) (s : State), 5 ≤ s.cyc → config.stackPageBase.toNat + 1 ≤ s.sp.toNat →
    s.sp.toNat ≤ config.stackPageBase.toNat + 0xFF →
    exec (.jsr target) s = .next { s with
      pc := target, sp := s.sp - 2, cyc := s.cyc - 5
      mem := (s.mem.write s.sp (hiByte (s.pc + 1))).write (s.sp - 1) (loByte (s.pc + 1)) }) ∧
    (∀ s : State, s.halt = .running → s.mem.read s.pc = 0x20 → 6 ≤ s.cyc →
      config.stackPageBase.toNat + 1 ≤ s.sp.toNat → s.sp.toNat ≤ config.stackPageBase.toNat + 0xFF →
      step s = .next { s with
        pc := wordOf (s.mem.read (s.pc + 2)) (s.mem.read (s.pc + 1)), sp := s.sp - 2, cyc := s.cyc - 6, ir := some 0x20
        mem := (s.mem.write s.sp (hiByte (s.pc + 2))).write (s.sp - 1) (loByte (s.pc + 2)) })

/-- RTS where its pop stays in the stack page: PC takes the popped word plus 1; no memory cell changes. Rests on D3, D5 and
D12. -/
def Obligations.RtsPopsAndContinuesOnePast : Prop :=
  (∀ s : State, 5 ≤ s.cyc → config.stackPageBase.toNat ≤ s.sp.toNat + 1 →
    s.sp.toNat ≤ config.stackPageBase.toNat + 0xFD →
    exec .rts s = .next { s with
      pc := wordOf (s.mem.read (s.sp + 2)) (s.mem.read (s.sp + 1)) + 1, sp := s.sp + 2, cyc := s.cyc - 5 }) ∧
    (∀ s : State, s.halt = .running → s.mem.read s.pc = 0x60 → 6 ≤ s.cyc →
      config.stackPageBase.toNat ≤ s.sp.toNat + 1 → s.sp.toNat ≤ config.stackPageBase.toNat + 0xFD →
      step s = .next { s with
        pc := wordOf (s.mem.read (s.sp + 2)) (s.mem.read (s.sp + 1)) + 1, sp := s.sp + 2, cyc := s.cyc - 6
        ir := some 0x60 })

/-- The stack fault of D5, as R144 gives the state it leaves: JSR has fetched its operand, RTS nothing; neither has touched
SP or memory, and the primitive's cycles are not charged. -/
def Obligations.StackFaultLeavesStackAndMemoryAlone : Prop :=
  (∀ s : State, s.halt = .running → s.mem.read s.pc = 0x20 → 6 ≤ s.cyc →
    ¬ (config.stackPageBase.toNat + 1 ≤ s.sp.toNat ∧ s.sp.toNat ≤ config.stackPageBase.toNat + 0xFF) →
    step s = .next { s with
      pc := s.pc + 3, cyc := s.cyc - 3, ir := some 0x20, halt := .halted .stackFault }) ∧
    (∀ s : State, s.halt = .running → s.mem.read s.pc = 0x60 → 6 ≤ s.cyc →
      ¬ (config.stackPageBase.toNat ≤ s.sp.toNat + 1 ∧ s.sp.toNat ≤ config.stackPageBase.toNat + 0xFD) →
      step s = .next { s with
        pc := s.pc + 1, cyc := s.cyc - 1, ir := some 0x60, halt := .halted .stackFault })

/-- The call/return law: a JSR to a RTS comes back to one past the call, in 12 cycles, and only the two pushed cells have
changed; for any target but those two cells. Where the two bytes land, and which pushes fault, rest on SP being an absolute
address (D3: log 5) and on the page check (D5: log 8). -/
def Obligations.CallThenReturnComesBackOnePastTheCall : Prop :=
  ∀ (s : State) (target : Word), s.mem.wf = true → s.halt = .running → s.mem.read s.pc = 0x20 →
    target = wordOf (s.mem.read (s.pc + 2)) (s.mem.read (s.pc + 1)) → s.mem.read target = 0x60 → 12 ≤ s.cyc →
    canPush s.sp = true → target ≠ s.sp → target ≠ s.sp - 1 →
    ∃ called returned : State, step s = .next called ∧ step called = .next returned ∧
      returned.pc = s.pc + 3 ∧ returned.sp = s.sp ∧ returned.a = s.a ∧ returned.x = s.x ∧ returned.y = s.y ∧
      returned.flags = s.flags ∧ returned.cyc = s.cyc - 12 ∧ returned.halt = .running ∧
      returned.mem.read s.sp = hiByte (s.pc + 2) ∧ returned.mem.read (s.sp - 1) = loByte (s.pc + 2) ∧
      ∀ addr : Word, addr ≠ s.sp → addr ≠ s.sp - 1 → returned.mem.read addr = s.mem.read addr

/-- A JSR into either of the two cells it pushes runs the pushed byte: the store is seen by the next fetch. Where the two
bytes land rests on D3 (log 5), which pushes fault on D5 (log 8). -/
def Obligations.PushedByteIsSeenByTheNextFetch : Prop :=
  ∀ (s : State) (target : Word), s.mem.wf = true → s.halt = .running → s.mem.read s.pc = 0x20 → 7 ≤ s.cyc →
    canPush s.sp = true → target = wordOf (s.mem.read (s.pc + 2)) (s.mem.read (s.pc + 1)) →
    target = s.sp ∨ target = s.sp - 1 →
    ∃ called fetched : State, step s = .next called ∧ step called = .next fetched ∧
      fetched.ir = some (if target = s.sp then hiByte (s.pc + 2) else loByte (s.pc + 2))

/-- A pop after a push gives the word back and restores SP; the popped cells keep their contents. -/
def Obligations.PopAfterPushGivesTheWordBack : Prop :=
  ∀ (v : Word) (s : State), s.mem.wf = true → canPush s.sp = true →
    ∃ pushed : State, pushWord v s = some pushed ∧
      popWord pushed = some (v, { pushed with sp := s.sp, cyc := pushed.cyc - 2 })

/-- From SP_RESET the stack holds exactly 128 words (D4, D5: log 5, log 8). -/
def Obligations.StackHolds128WordsFromReset : Prop :=
  ∀ (words : List Word) (s : State), s.sp = config.spReset →
    ((pushAll words s).isSome = true ↔ words.length ≤ 128)

/-! ### Flags and transfers -/

/-- R120. The opcode byte is the parameter OPC_CLC (D10, log 6); PC counts as D7 has it (log 7). -/
def Obligations.ClcClearsCarryOnly : Prop :=
  (∀ s : State, exec .clc s = .next { s with flags := { s.flags with c := false } }) ∧
    (∀ s : State, s.halt = .running → s.mem.read s.pc = config.opcClc → 1 ≤ s.cyc →
      step s = .next { s with
        flags := { s.flags with c := false }, pc := s.pc + 1, cyc := s.cyc - 1, ir := some config.opcClc })

/-- R121. The opcode byte is the parameter OPC_SEC (D10, log 6); PC counts as D7 has it (log 7). -/
def Obligations.SecSetsCarryOnly : Prop :=
  (∀ s : State, exec .sec s = .next { s with flags := { s.flags with c := true } }) ∧
    (∀ s : State, s.halt = .running → s.mem.read s.pc = config.opcSec → 1 ≤ s.cyc →
      step s = .next { s with
        flags := { s.flags with c := true }, pc := s.pc + 1, cyc := s.cyc - 1, ir := some config.opcSec })

/-- R130. PC counts as D7 has it (log 7). -/
def Obligations.TaxCopiesAToX : Prop :=
  (∀ s : State, exec .tax s = .next { s with
    x := s.a, flags := { s.flags with z := decide (s.a = 0x00), n := s.a.msb } }) ∧
    (∀ s : State, s.halt = .running → s.mem.read s.pc = 0xAA → 1 ≤ s.cyc →
      step s = .next { s with
        x := s.a, flags := { s.flags with z := decide (s.a = 0x00), n := s.a.msb }
        pc := s.pc + 1, cyc := s.cyc - 1, ir := some 0xAA })

/-- R131. The opcode byte is the parameter OPC_TAY (D10, log 6); PC counts as D7 has it (log 7). -/
def Obligations.TayCopiesAToY : Prop :=
  (∀ s : State, exec .tay s = .next { s with
    y := s.a, flags := { s.flags with z := decide (s.a = 0x00), n := s.a.msb } }) ∧
    (∀ s : State, s.halt = .running → s.mem.read s.pc = config.opcTay → 1 ≤ s.cyc →
      step s = .next { s with
        y := s.a, flags := { s.flags with z := decide (s.a = 0x00), n := s.a.msb }
        pc := s.pc + 1, cyc := s.cyc - 1, ir := some config.opcTay })

/-- R132. The opcode byte is the parameter OPC_TXA (D10, log 6); PC counts as D7 has it (log 7). -/
def Obligations.TxaCopiesXToA : Prop :=
  (∀ s : State, exec .txa s = .next { s with
    a := s.x, flags := { s.flags with z := decide (s.x = 0x00), n := s.x.msb } }) ∧
    (∀ s : State, s.halt = .running → s.mem.read s.pc = config.opcTxa → 1 ≤ s.cyc →
      step s = .next { s with
        a := s.x, flags := { s.flags with z := decide (s.x = 0x00), n := s.x.msb }
        pc := s.pc + 1, cyc := s.cyc - 1, ir := some config.opcTxa })

/-- R133. The opcode byte is the parameter OPC_TYA (D10, log 6); PC counts as D7 has it (log 7). -/
def Obligations.TyaCopiesYToA : Prop :=
  (∀ s : State, exec .tya s = .next { s with
    a := s.y, flags := { s.flags with z := decide (s.y = 0x00), n := s.y.msb } }) ∧
    (∀ s : State, s.halt = .running → s.mem.read s.pc = config.opcTya → 1 ≤ s.cyc →
      step s = .next { s with
        a := s.y, flags := { s.flags with z := decide (s.y = 0x00), n := s.y.msb }
        pc := s.pc + 1, cyc := s.cyc - 1, ir := some config.opcTya })

/-- R17: Z and N are a function of the value last produced by one of the nine loads and transfers, never both 1; the other
four leave them, and so does a step that performs no instruction or halts; and reset is the exception. -/
def Obligations.ZeroAndNegativeFollowTheProducedValue : Prop :=
  (∀ (i : Instr) (s t : State) (v : Byte), i.form.cost ≤ s.cyc + 1 → exec i s = .next t → producedValue i t = some v →
    t.flags.z = decide (v = 0x00) ∧ t.flags.n = v.getLsbD 7 ∧ ¬ (t.flags.z = true ∧ t.flags.n = true)) ∧
    (∀ (i : Instr) (s t : State), exec i s = .next t → producedValue i t = none →
      t.flags.z = s.flags.z ∧ t.flags.n = s.flags.n) ∧
    (∀ s t : State, step s = .next t → t.halt ≠ .running → t.flags.z = s.flags.z ∧ t.flags.n = s.flags.n) ∧
    (State.reset.a = 0x00 ∧ State.reset.x = 0x00 ∧ State.reset.y = 0x00 ∧ State.reset.flags.z = false ∧ State.reset.flags.n = false)

/-! ### The dispatch loop and the halts -/

/-- A step runs the decoded instruction, around it only the opcode fetch (R79): PC one on, one cycle spent, IR written. -/
def Obligations.StepRunsTheDecodedInstruction : Prop :=
  ∀ (s : State) (i : Instr) (rest : List Byte), s.halt = .running → s.cyc ≠ 0 →
    decode [s.mem.read s.pc, s.mem.read (s.pc + 1), s.mem.read (s.pc + 2)] = .ok (i, rest) →
    i.wf = true ∧
      step s = exec i { s with pc := s.pc + 1, cyc := s.cyc - 1, ir := some (s.mem.read s.pc) }

/-- The same from the encoder's side: an instruction whose encoded bytes stand from PC on is the one the step runs. -/
def Obligations.StepRunsTheEncodedInstruction : Prop :=
  ∀ (s : State) (i : Instr), s.halt = .running → s.cyc ≠ 0 →
    (∀ (k : Nat) (b : Byte), (encode i)[k]? = some b → s.mem.read (s.pc + BitVec.ofNat 16 k) = b) →
    step s = exec i { s with pc := s.pc + 1, cyc := s.cyc - 1, ir := some i.form.opcode }

/-- The operand of each of the six forms that have one is what FetchByte (R70) or FetchWord (R71) reads after the opcode
fetch (log 20); FetchWord equals two FetchByte calls, low byte first. -/
def Obligations.OperandsAreWhatTheFetchPrimitivesRead : Prop :=
  (∀ (s : State) (b : Byte) (rest : List Byte),
    decode (instrBytes s) = .ok (.ldaImm b, rest) ∨ decode (instrBytes s) = .ok (.ldaZp b, rest) ∨
      decode (instrBytes s) = .ok (.ldaZpX b, rest) ∨ decode (instrBytes s) = .ok (.ldxImm b, rest) ∨
      decode (instrBytes s) = .ok (.ldyImm b, rest) →
    b = (fetchByte (fetchOpcode s)).1) ∧
    (∀ (s : State) (target : Word) (rest : List Byte), decode (instrBytes s) = .ok (.jsr target, rest) →
      target = (fetchWord (fetchOpcode s)).1) ∧
    (∀ s : State, fetchWord s =
      (wordOf (fetchByte (fetchByte s).2).1 (fetchByte s).1, (fetchByte (fetchByte s).2).2))

/-- R78, R143: CYC = 0 at the top of the loop, and only that, ends the run normally; Execute(0) changes nothing but CYC and
HALT. -/
def Obligations.EmptyBudgetEndsTheRun : Prop :=
  (∀ s : State, s.halt = .running → s.cyc = 0 → step s = .next { s with halt := .halted .budgetExhausted }) ∧
    (∀ s t : State, s.halt = .running → s.cyc ≠ 0 → step s = .next t → t.halt ≠ .halted .budgetExhausted) ∧
    (∀ s : State, execute 0 s = .next { s with cyc := 0, halt := .halted .budgetExhausted })

/-- R80, R141: the state an unrecognised opcode leaves, at any budget that let it be fetched. PC counts as D7 has it (log 7). -/
def Obligations.UnrecognizedOpcodeHaltsAfterItsFetch : Prop :=
  ∀ s : State, s.halt = .running → s.cyc ≠ 0 → s.mem.read s.pc ∉ config.opcodes →
    step s = .next { s with
      pc := s.pc + 1, cyc := s.cyc - 1, ir := some (s.mem.read s.pc), halt := .halted .unrecognizedOpcode }

/-- R81, R142: the state left where the budget does not cover a recognised instruction, and that this is the only case in
which InsufficientBudget is reported. PC counts as D7 has it (log 7). -/
def Obligations.InsufficientBudgetStopsBeforeTheEffects : Prop :=
  ∀ (s : State) (i : Instr) (rest : List Byte), s.halt = .running → s.cyc ≠ 0 → decode (instrBytes s) = .ok (i, rest) →
    (s.cyc - 1 < i.form.cost - 1 →
      step s = .next { s with
        pc := s.pc + 1, cyc := s.cyc - 1, ir := some (s.mem.read s.pc), halt := .halted .insufficientBudget }) ∧
      (∀ t : State, step s = .next t → (t.halt = .halted .insufficientBudget ↔ s.cyc < i.form.cost)) ∧
      (i.form.cost = 1 → ∀ t : State, step s = .next t → t.halt = .running)

/-- What a running iteration reports, in the order the conditions are tested. Which stack accesses fault is D5's choice
(log 8). -/
def Obligations.FirstConditionTestedIsReported : Prop :=
  ∀ s : State, s.halt = .running → ∃ t : State, step s = .next t ∧
    t.halt =
      if s.cyc = 0 then .halted .budgetExhausted
      else match lookup (s.mem.read s.pc) with
        | none => .halted .unrecognizedOpcode
        | some f =>
          if s.cyc < f.cost then .halted .insufficientBudget
          else if f = .jsr ∧ canPush s.sp = false ∨ f = .rts ∧ canPop s.sp = false then .halted .stackFault
          else .running

/-- A halt is precise: the iteration that halts leaves A, X, Y, SP, the flags and memory as it found them. -/
def Obligations.HaltingIterationKeepsRegistersAndMemory : Prop :=
  ∀ (s t : State) (r : HaltReason), s.halt = .running → step s = .next t → t.halt = .halted r →
    t.a = s.a ∧ t.x = s.x ∧ t.y = s.y ∧ t.sp = s.sp ∧ t.flags = s.flags ∧ t.mem = s.mem

/-- While the Processor is not running a step changes nothing (the model's reading of R145 and R158: log 2). -/
def Obligations.NothingHappensBetweenRuns : Prop :=
  ∀ s : State, s.halt ≠ .running → step s = .next s

/-- Nothing in the machine faults or is refused: a meaning and a step answer a next state in every state. -/
def Obligations.EveryStepAnswersANextState : Prop :=
  (∀ (i : Instr) (s : State), ∃ t, exec i s = .next t) ∧ (∀ s : State, ∃ t, step s = .next t)

/-- R6: a completed instruction spends exactly its cost in the table, and a step never adds a cycle and always spends one while
any is left. -/
def Obligations.CompletedInstructionSpendsItsCost : Prop :=
  Form.all.map Form.cost = [2, 3, 4, 2, 2, 6, 6, 1, 1, 1, 1, 1, 1] ∧
    (∀ (s t : State) (i : Instr) (rest : List Byte), s.halt = .running → s.cyc ≠ 0 →
      decode (instrBytes s) = .ok (i, rest) → step s = .next t → t.halt = .running →
      t.cyc + i.form.cost = s.cyc) ∧
    (∀ s t : State, step s = .next t → t.cyc ≤ s.cyc ∧ (s.halt = .running → s.cyc ≠ 0 → t.cyc < s.cyc))

/-- IR is written by the opcode fetch and by nothing else (the value before the first fetch is D16's: log 11). -/
def Obligations.OpcodeFetchAloneWritesIr : Prop :=
  (∀ (i : Instr) (s t : State), exec i s = .next t → t.ir = s.ir) ∧
    (∀ s t : State, step s = .next t →
      t.ir = if s.halt = .running ∧ s.cyc ≠ 0 then some (s.mem.read s.pc) else s.ir)

/-- Every Execute(budget) ends in one of the four halts after at most budget + 1 iterations, with no cycle gained
(the model takes the loop that often: log 25); the steps after the halt change nothing (log 2). -/
def Obligations.EveryExecuteTerminates : Prop :=
  ∀ (budget : Nat) (s : State), ∃ (t : State) (r : HaltReason), execute budget s = .next t ∧ t.halt = .halted r ∧
    t.cyc ≤ budget ∧ ∀ n : Nat, budget + 1 ≤ n → Sys2Proof.core.run n (beginRun budget s) = .next t

/-- A run split where the first part ended with BudgetExhausted is the unsplit run (D14: log 15). -/
def Obligations.SplitRunEqualsUnsplitRun : Prop :=
  ∀ (b1 b2 : Nat) (s t : State), execute b1 s = .next t → t.halt = .halted .budgetExhausted →
    execute b2 t = execute (b1 + b2) s

/-- Execute(c) with c the next instruction's cost performs exactly that instruction. -/
def Obligations.ExecuteOfTheCostIsASingleStep : Prop :=
  ∀ (s t : State) (i : Instr) (rest : List Byte), decode (instrBytes s) = .ok (i, rest) →
    step (beginRun i.form.cost s) = .next t → t.halt = .running →
    t.cyc = 0 ∧ execute i.form.cost s = .next { t with halt := .halted .budgetExhausted }

/-- The two end-of-run properties of the source: a budget short of the next instruction's cost, and an opcode byte outside
the catalog, at any budget of at least 1. -/
def Obligations.ExecuteEndsAtAnUnperformedInstruction : Prop :=
  (∀ (s : State) (i : Instr) (rest : List Byte) (budget : Nat), decode (instrBytes s) = .ok (i, rest) → 1 ≤ budget →
    budget < i.form.cost →
    execute budget s = .next { s with
      pc := s.pc + 1, cyc := budget - 1, ir := some (s.mem.read s.pc), halt := .halted .insufficientBudget }) ∧
    (∀ (s : State) (budget : Nat), s.mem.read s.pc ∉ config.opcodes → 1 ≤ budget →
      execute budget s = .next { s with
        pc := s.pc + 1, cyc := budget - 1, ir := some (s.mem.read s.pc), halt := .halted .unrecognizedOpcode })

/-- The early-exit wrinkle: after InsufficientBudget the next run takes the byte after the opcode as an opcode (D14). -/
def Obligations.RunAfterEarlyExitStartsAtTheOperand : Prop :=
  ∀ (s t : State) (budget : Nat), s.halt = .running → step s = .next t → t.halt = .halted .insufficientBudget →
    1 ≤ budget → t.pc = s.pc + 1 ∧
      ∃ u : State, step (beginRun budget t) = .next u ∧ u.ir = some (s.mem.read (s.pc + 1))

/-! ### Frames and invariants -/

/-- What each instruction may write after its opcode fetch: A, X, Y as R11's table says, SP by JSR and RTS only, C by CLC and
SEC only, Z and N by the nine only, I, D, B and V by none, memory by JSR only, IR by none, HALT only where it halts; PC and
CYC by none of the six forms that the opcode fetch completes, and by none where the budget is short. -/
def Obligations.ExecWritesOnlyItsOwnTargets : Prop :=
  ∀ (i : Instr) (s t : State), exec i s = .next t →
    (i.form ∉ [.ldaImm, .ldaZp, .ldaZpX, .txa, .tya] → t.a = s.a) ∧
    (i.form ∉ [.ldxImm, .tax] → t.x = s.x) ∧
    (i.form ∉ [.ldyImm, .tay] → t.y = s.y) ∧
    (i.form ∉ [.jsr, .rts] → t.sp = s.sp) ∧
    (i.form ∉ [.clc, .sec] → t.flags.c = s.flags.c) ∧
    (i.form ∈ [.jsr, .rts, .clc, .sec] → t.flags.z = s.flags.z ∧ t.flags.n = s.flags.n) ∧
    (t.flags.i = s.flags.i ∧ t.flags.d = s.flags.d ∧ t.flags.b = s.flags.b ∧ t.flags.v = s.flags.v) ∧
    (i.form ≠ .jsr → ∀ addr : Word, t.mem.read addr = s.mem.read addr) ∧
    (i.form = .jsr → ∀ addr : Word, addr ≠ s.sp → addr ≠ s.sp - 1 → t.mem.read addr = s.mem.read addr) ∧
    t.ir = s.ir ∧
    (i.form ∈ [.clc, .sec, .tax, .tay, .txa, .tya] → t.pc = s.pc ∧ t.cyc = s.cyc) ∧
    (s.cyc < i.form.cost - 1 → t.pc = s.pc ∧ t.cyc = s.cyc) ∧
    (t.halt = s.halt ∨ t.halt = .halted .insufficientBudget ∨
      (i.form ∈ [.jsr, .rts] ∧ t.halt = .halted .stackFault))

/-- I, D, B and V are written by reset alone. -/
def Obligations.InertFlagsNeverChange : Prop :=
  ∀ s t : State, step s = .next t →
    t.flags.i = s.flags.i ∧ t.flags.d = s.flags.d ∧ t.flags.b = s.flags.b ∧ t.flags.v = s.flags.v

/-- No step writes memory outside the stack page, and only a JSR writes memory, at SP and SP - 1. -/
def Obligations.OnlyJsrWritesMemoryAndOnlyItsStackSlots : Prop :=
  ∀ (s t : State) (addr : Word), step s = .next t → t.mem.read addr ≠ s.mem.read addr →
    s.mem.read s.pc = 0x20 ∧ inStackPage addr.toNat = true ∧ (addr = s.sp ∨ addr = s.sp - 1)

/-- Memory after a step is memory after the step's listed writes, in order; all the writes lie in the stack page. -/
def Obligations.ListedWritesAreAllTheWrites : Prop :=
  (∀ s t : State, step s = .next t → t.mem = applyWrites (iterationAccesses s) s.mem) ∧
    (∀ (s : State) (addr : Word) (v : Byte), .write addr v ∈ iterationAccesses s → inStackPage addr.toNat = true)

/-- A step depends on no memory cell but those it is listed to read: the list is the model's (log 21), and the bytes after a
shorter instruction, which the decoder is given too, decide nothing (log 20). -/
def Obligations.StepDependsOnListedReadsOnly : Prop :=
  ∀ (s t : State) (m : Memory), step s = .next t →
    (∀ addr ∈ readsOf (iterationAccesses s), m.read addr = s.mem.read addr) →
    ∃ u : State, step { s with mem := m } = .next u ∧ { u with mem := t.mem } = t

/-- The state after reset meets the invariant. -/
def Obligations.ResetStateIsLegal : Prop := State.reset.legal = true

/-- Every step keeps the invariant: memory canonical; SP in its range with its parity (R14); I, D, B, V clear and never Z
with N (R16, R17); HALT consistent with CYC, IR and SP (R141 to R144). -/
def Obligations.StepKeepsTheStateLegal : Prop :=
  ∀ s t : State, s.legal = true → step s = .next t → t.legal = true

/-- Every host operation keeps the invariant, a whole run among them. -/
def Obligations.HostMovesKeepTheStateLegal : Prop :=
  ∀ (op : HostOp) (s t : State) (reply : HostReply), s.legal = true → hostMove op (some s) = .next (t, reply) →
    t.legal = true

/-! ### Reset and the host -/

/-- The state after Reset(), which the host may ask for at any time but during a run. SP_RESET is D4's (log 5); CYC, IR and
HALT are D16's and D20's (log 11). -/
def Obligations.ResetSetsEveryPieceOfState : Prop :=
  ∀ m : Option State, (∀ s, m = some s → s.halt ≠ .running) → ∃ t : State, hostMove .reset m = .next (t, .nothing) ∧
    t.a = 0x00 ∧ t.x = 0x00 ∧ t.y = 0x00 ∧ t.pc = 0xFFFC ∧ t.sp = config.spReset ∧
    t.flags = ⟨false, false, false, false, false, false, false⟩ ∧ (∀ addr : Word, t.mem.read addr = 0x00) ∧
    t.cyc = 0 ∧ t.ir = none ∧ t.halt = .none

/-- No vector is read: the byte at 0xFFFC is fetched as an opcode. That of the host's operations only Reset() and Execute move
PC is D15's choice (log 13). -/
def Obligations.ResetLocationIsFetchedAsCode : Prop :=
  (∀ v0 v1 : Byte, ∃ t : State,
    execute 1 { State.reset with mem := (State.reset.mem.write 0xFFFC v0).write 0xFFFD v1 } = .next t ∧
      t.ir = some v0 ∧ t.pc = 0xFFFD) ∧
    (∀ (op : HostOp) (s t : State) (reply : HostReply), hostMove op (some s) = .next (t, reply) → op ≠ .reset →
      (∀ budget, op ≠ .execute budget) → t.pc = s.pc)

/-- What the host can change, and what it gets back: Reset() gives the reset state, Execute the state the run ends in and its
HALT, and every other operation changes memory only, reading and observing not even that; observing gives the piece of the
state asked for, IR only where it holds a value (D16: log 11). That the host has no other operations, and these only between
runs, is D15's choice (log 13). -/
def Obligations.HostWritesMemoryOnly : Prop :=
  ∀ (op : HostOp) (s t : State) (reply : HostReply), hostMove op (some s) = .next (t, reply) →
    s.halt ≠ .running ∧
      match op with
      | .reset => t = State.reset ∧ reply = .nothing
      | .execute budget => execute budget s = .next t ∧ reply = .status t.halt
      | .read addr => t = s ∧ reply = .byte (s.mem.read addr)
      | .observe what => t = s ∧
        match what with
        | .a => reply = .byte s.a
        | .x => reply = .byte s.x
        | .y => reply = .byte s.y
        | .pc => reply = .word s.pc
        | .sp => reply = .word s.sp
        | .flagC => reply = .flag s.flags.c
        | .flagZ => reply = .flag s.flags.z
        | .flagI => reply = .flag s.flags.i
        | .flagD => reply = .flag s.flags.d
        | .flagB => reply = .flag s.flags.b
        | .flagV => reply = .flag s.flags.v
        | .flagN => reply = .flag s.flags.n
        | .cyc => reply = .count s.cyc
        | .ir => ∃ op, s.ir = some op ∧ reply = .byte op
        | .halt => reply = .status s.halt
      | .write _ _ => t = { s with mem := t.mem } ∧ reply = .nothing
      | .writeWord _ _ => t = { s with mem := t.mem } ∧ reply = .nothing
      | .zeroMemory => t = { s with mem := t.mem } ∧ reply = .nothing ∧ ∀ addr : Word, t.mem.read addr = 0x00

/-- A read gives the byte last written to that cell, and a write changes that one cell. -/
def Obligations.HostReadsTheByteLastWritten : Prop :=
  ∀ (s : State) (addr : Word) (v : Byte), s.mem.wf = true → s.halt ≠ .running → ∃ t : State,
    hostMove (.write addr v) (some s) = .next (t, .nothing) ∧
      ∀ b : Word, hostMove (.read b) (some t) = .next (t, .byte (if b = addr then v else s.mem.read b))

/-- write_word stores the low byte at the lower address, and no other cell changes; 0xFFFF is refused (D8: log 14). -/
def Obligations.WriteWordIsLittleEndian : Prop :=
  (∀ (s : State) (value addr : Word), s.mem.wf = true → s.halt ≠ .running → addr ≠ 0xFFFF → ∃ t : State,
    hostMove (.writeWord value addr) (some s) = .next (t, .nothing) ∧ t.mem.read addr = loByte value ∧
      t.mem.read (addr + 1) = hiByte value ∧
      ∀ b : Word, b ≠ addr → b ≠ addr + 1 → t.mem.read b = s.mem.read b) ∧
    (∀ (s : State) (value : Word), s.halt ≠ .running →
      hostMove (.writeWord value 0xFFFF) (some s) = .refused .writeWordAtTop)

/-- The refusals of the host's interface: before the first Reset() (D20), during a run (D15), and reading IR while it holds
no value (D16): log 11, log 12, log 13. -/
def Obligations.HostIsRefusedWhereTheSpecGivesNoMove : Prop :=
  (∀ op : HostOp, op ≠ .reset → hostMove op none = .refused .beforeFirstReset) ∧
    (∀ (op : HostOp) (s : State), s.halt = .running → hostMove op (some s) = .refused .processorRunning) ∧
    (∀ s : State, s.halt ≠ .running → s.ir = none →
      hostMove (.observe .ir) (some s) = .refused .irHoldsNoValue) ∧
    (∀ (s : State) (v : Byte), s.halt ≠ .running → s.ir = some v →
      hostMove (.observe .ir) (some s) = .next (s, .byte v))
end

