-- ==== Sys2Proof/Laws/Decode.lean ====
section
/-! SUPPORT. The catalog lookup, and what the decoder answers form by form. -/

namespace Sys2Proof

/-- The parameters meet R5's constraints. -/
theorem config_wf : config.wf = true := by decide

theorem Form.mem_all (f : Form) : f ∈ Form.all := by cases f <;> decide

/-- Every cost is at least 1 (R87: "`cost >= 1` for every row"). -/
theorem Form.cost_pos (f : Form) : 1 ≤ f.cost := by cases f <;> decide

/-- No cost is above 6 (R85). -/
theorem Form.cost_le (f : Form) : f.cost ≤ 6 := by cases f <;> decide

/-- No instruction is longer than three bytes (R50). -/
theorem Form.length_le (f : Form) : f.length ≤ 3 := by cases f <;> decide

@[simp] theorem lookup_opcode (f : Form) : lookup f.opcode = some f := by cases f <;> decide

/-- Lookup is an exact match on the opcode byte (R54). -/
theorem lookup_eq_some {op : Byte} {f : Form} : lookup op = some f ↔ op = f.opcode := by
  constructor
  · intro h
    have := List.find?_some h
    exact (beq_iff_eq.1 this).symm
  · rintro rfl; exact lookup_opcode f

theorem Form.opcode_injective {f g : Form} (h : f.opcode = g.opcode) : f = g := by
  have := lookup_opcode f
  rw [h, lookup_opcode] at this
  exact (Option.some.inj this).symm

/-- A byte is unrecognised exactly when it is no form's opcode (R55). -/
theorem lookup_eq_none {op : Byte} : lookup op = none ↔ ∀ f : Form, f.opcode ≠ op := by
  constructor
  · intro h f hf
    rw [← hf, lookup_opcode] at h
    cases h
  · intro h
    cases hl : lookup op with
    | none => rfl
    | some f => exact absurd (lookup_eq_some.1 hl).symm (h f)

@[simp] theorem decode_nil : decode [] = .error .noBytes := rfl

theorem decode_of_lookup {op : Byte} {f : Form} (h : lookup op = some f) (rest : List Byte) :
    decode (op :: rest) = decodeOperand f rest := by simp [decode, h]

theorem decode_of_unrecognized {op : Byte} (h : lookup op = none) (rest : List Byte) :
    decode (op :: rest) = .error (.unrecognizedOpcode op) := by simp [decode, h]

/-- Three bytes are enough for every form: what they decode to, or why not (R50). -/
theorem decode_three_cases (b0 b1 b2 : Byte) :
    (lookup b0 = none ∧ decode [b0, b1, b2] = .error (.unrecognizedOpcode b0)) ∨
      ∃ i rest, b0 = i.form.opcode ∧ decode [b0, b1, b2] = .ok (i, rest) := by
  cases h : lookup b0 with
  | none => exact .inl ⟨rfl, decode_of_unrecognized h _⟩
  | some f =>
    refine .inr ?_
    rw [decode_of_lookup h]
    have hb := lookup_eq_some.1 h
    cases f <;> (refine ⟨_, _, ?_, rfl⟩; exact hb)

theorem decode_three_ok {b0 b1 b2 : Byte} {i : Instr} {rest : List Byte} (h : decode [b0, b1, b2] = .ok (i, rest)) :
    b0 = i.form.opcode := by
  rcases decode_three_cases b0 b1 b2 with ⟨_, he⟩ | ⟨j, r, hb, he⟩
  · rw [he] at h; cases h
  · rw [he] at h; cases h; exact hb

end Sys2Proof
end

