-- ==== Sys2Proof/Laws/Memory.lean ====
section
/-! SUPPORT. Read after write, the canonical form, and that canonical memories are equal where every address reads
the same. -/

namespace Sys2Proof.Machine

theorem Memory.sortedFrom_cons {lo k : Nat} {v : Byte} {m : Memory} :
    Memory.sortedFrom lo ((k, v) :: m) = true ↔
      lo ≤ k ∧ k < 65536 ∧ v ≠ Memory.unlisted ∧ Memory.sortedFrom (k + 1) m = true := by
  simp [Memory.sortedFrom, and_assoc]

theorem Memory.sortedFrom_mono {lo lo' : Nat} {m : Memory} (h : Memory.sortedFrom lo m = true) (hl : lo' ≤ lo) :
    Memory.sortedFrom lo' m = true := by
  cases m with
  | nil => rfl
  | cons p m =>
    obtain ⟨k, v⟩ := p
    rw [Memory.sortedFrom_cons] at h ⊢
    exact ⟨by omega, h.2⟩

theorem Memory.get_below {lo k : Nat} {m : Memory} (h : Memory.sortedFrom lo m = true) (hk : k < lo) :
    Memory.get k m = Memory.unlisted := by
  induction m generalizing lo with
  | nil => rfl
  | cons p m ih =>
    obtain ⟨k', v⟩ := p
    rw [Memory.sortedFrom_cons] at h
    have hne : k ≠ k' := by omega
    simp only [Memory.get, hne, if_false]
    exact ih h.2.2.2 (by omega)

theorem Memory.get_set_same {lo k : Nat} {v : Byte} {m : Memory} (h : Memory.sortedFrom lo m = true) :
    Memory.get k (Memory.set k v m) = v := by
  induction m generalizing lo with
  | nil => simp only [Memory.set]; split <;> simp_all [Memory.get]
  | cons p m ih =>
    obtain ⟨k', v'⟩ := p
    rw [Memory.sortedFrom_cons] at h
    have below : k < k' + 1 → Memory.get k m = Memory.unlisted := Memory.get_below h.2.2.2
    simp only [Memory.set]
    split
    · split
      · have hne : k ≠ k' := by omega
        simp_all [Memory.get]; exact below (by omega)
      · simp [Memory.get]
    · split
      · split
        · rename_i hv; rw [below (by omega), hv]
        · simp [Memory.get]
      · rename_i hne; simp only [Memory.get, hne, if_false]; exact ih h.2.2.2

theorem Memory.get_set_other {j k : Nat} {v : Byte} {m : Memory} (hjk : j ≠ k) :
    Memory.get j (Memory.set k v m) = Memory.get j m := by
  induction m with
  | nil => simp only [Memory.set]; split <;> simp [Memory.get, hjk]
  | cons p m ih =>
    obtain ⟨k', v'⟩ := p
    simp only [Memory.set]
    split
    · split <;> simp [Memory.get, hjk]
    · split
      · rename_i hk; subst hk; split <;> simp [Memory.get, hjk]
      · simp only [Memory.get, ih]

theorem Memory.set_sortedFrom {lo k : Nat} {v : Byte} {m : Memory} (h : Memory.sortedFrom lo m = true) (hl : lo ≤ k)
    (hk : k < 65536) : Memory.sortedFrom lo (Memory.set k v m) = true := by
  induction m generalizing lo with
  | nil => simp only [Memory.set]; split <;> simp_all [Memory.sortedFrom]
  | cons p m ih =>
    obtain ⟨k', v'⟩ := p
    have h0 := h
    rw [Memory.sortedFrom_cons] at h
    simp only [Memory.set]
    split
    · split
      · exact h0
      · rename_i hv
        rw [Memory.sortedFrom_cons, Memory.sortedFrom_cons]
        exact ⟨hl, hk, hv, by omega, h.2⟩
    · split
      · rename_i heq; subst heq
        split
        · exact Memory.sortedFrom_mono h.2.2.2 (by omega)
        · rename_i hv; rw [Memory.sortedFrom_cons]; exact ⟨hl, hk, hv, h.2.2.2⟩
      · rw [Memory.sortedFrom_cons]
        exact ⟨h.1, h.2.1, h.2.2.1, ih h.2.2.2 (by omega)⟩

theorem Memory.eq_of_get_eq {lo : Nat} {m m' : Memory} (h : Memory.sortedFrom lo m = true)
    (h' : Memory.sortedFrom lo m' = true) (he : ∀ k, Memory.get k m = Memory.get k m') : m = m' := by
  induction m generalizing lo m' with
  | nil =>
    cases m' with
    | nil => rfl
    | cons p m' =>
      obtain ⟨k, v⟩ := p
      rw [Memory.sortedFrom_cons] at h'
      have := he k
      simp only [Memory.get, if_true] at this
      exact absurd this.symm h'.2.2.1
  | cons p m ih =>
    obtain ⟨k, v⟩ := p
    have h0 := h
    rw [Memory.sortedFrom_cons] at h
    cases m' with
    | nil =>
      have := he k
      simp only [Memory.get, if_true] at this
      exact absurd this h.2.2.1
    | cons p' m' =>
      obtain ⟨k', v'⟩ := p'
      have h0' := h'
      rw [Memory.sortedFrom_cons] at h'
      have hk : k = k' := by
        by_contra hne
        rcases Nat.lt_or_gt_of_ne hne with hlt | hlt
        · have h1 : Memory.get k ((k', v') :: m') = Memory.unlisted :=
            Memory.get_below (lo := k') (Memory.sortedFrom_cons.2 ⟨Nat.le_refl _, h'.2⟩) hlt
          have h2 := he k
          rw [h1] at h2; simp only [Memory.get, if_true] at h2
          exact h.2.2.1 h2
        · have h1 : Memory.get k' ((k, v) :: m) = Memory.unlisted :=
            Memory.get_below (lo := k) (Memory.sortedFrom_cons.2 ⟨Nat.le_refl _, h.2⟩) hlt
          have h2 := he k'
          rw [h1] at h2; simp only [Memory.get, if_true] at h2
          exact h'.2.2.1 h2.symm
      subst hk
      have hv : v = v' := by simpa [Memory.get] using he k
      subst hv
      congr 1
      refine ih h.2.2.2 h'.2.2.2 fun j => ?_
      by_cases hj : j = k
      · subst hj; rw [Memory.get_below h.2.2.2 (by omega), Memory.get_below h'.2.2.2 (by omega)]
      · simpa [Memory.get, hj] using he j

/-- Every write keeps the canonical form. -/
theorem Memory.write_wf {m : Memory} (h : m.wf = true) (addr : Word) (v : Byte) : (m.write addr v).wf = true :=
  Memory.set_sortedFrom h (Nat.zero_le _) addr.isLt

/-- Empty memory, every cell 0x00, is canonical. -/
theorem Memory.nil_wf : Memory.wf [] = true := rfl

theorem Memory.read_write_same {m : Memory} (h : m.wf = true) (addr : Word) (v : Byte) :
    (m.write addr v).read addr = v := Memory.get_set_same h

theorem Memory.read_write_other {m : Memory} {addr b : Word} (hne : b ≠ addr) (v : Byte) :
    (m.write addr v).read b = m.read b :=
  Memory.get_set_other fun h => hne (BitVec.eq_of_toNat_eq h)

theorem Memory.read_write {m : Memory} (h : m.wf = true) (addr b : Word) (v : Byte) :
    (m.write addr v).read b = if b = addr then v else m.read b := by
  split
  · rename_i hb; subst hb; exact Memory.read_write_same h _ _
  · rename_i hb; exact Memory.read_write_other hb v

theorem Memory.get_above {lo k : Nat} {m : Memory} (h : Memory.sortedFrom lo m = true) (hk : 65536 ≤ k) :
    Memory.get k m = Memory.unlisted := by
  induction m generalizing lo with
  | nil => rfl
  | cons p m ih =>
    obtain ⟨k', v⟩ := p
    rw [Memory.sortedFrom_cons] at h
    have hne : k ≠ k' := by omega
    simp only [Memory.get, hne, if_false]
    exact ih h.2.2.2

/-- Canonical memories that read the same at every address are the same data. -/
theorem Memory.eq_of_read_eq {m m' : Memory} (h : m.wf = true) (h' : m'.wf = true)
    (he : ∀ addr, m.read addr = m'.read addr) : m = m' := by
  refine Memory.eq_of_get_eq h h' fun k => ?_
  by_cases hk : k < 65536
  · have := he (BitVec.ofNat 16 k)
    simpa [Memory.read, Nat.mod_eq_of_lt hk] using this
  · rw [Memory.get_above h (by omega), Memory.get_above h' (by omega)]

end Sys2Proof.Machine
end

