-- ==== Sys2Proof/Laws/State.lean ====
section
/-! SUPPORT. One lemma per field per state update, true by rfl, so that no later proof unfolds a record update; and the
flags and operand reads likewise. -/

namespace Sys2Proof.Machine

@[simp] theorem haltWith_a (r : HaltReason) (s : State) : (haltWith r s).a = s.a := rfl
@[simp] theorem haltWith_x (r : HaltReason) (s : State) : (haltWith r s).x = s.x := rfl
@[simp] theorem haltWith_y (r : HaltReason) (s : State) : (haltWith r s).y = s.y := rfl
@[simp] theorem haltWith_pc (r : HaltReason) (s : State) : (haltWith r s).pc = s.pc := rfl
@[simp] theorem haltWith_sp (r : HaltReason) (s : State) : (haltWith r s).sp = s.sp := rfl
@[simp] theorem haltWith_flags (r : HaltReason) (s : State) : (haltWith r s).flags = s.flags := rfl
@[simp] theorem haltWith_mem (r : HaltReason) (s : State) : (haltWith r s).mem = s.mem := rfl
@[simp] theorem haltWith_cyc (r : HaltReason) (s : State) : (haltWith r s).cyc = s.cyc := rfl
@[simp] theorem haltWith_ir (r : HaltReason) (s : State) : (haltWith r s).ir = s.ir := rfl
@[simp] theorem haltWith_halt (r : HaltReason) (s : State) : (haltWith r s).halt = .halted r := rfl

@[simp] theorem beginRun_a (n : Nat) (s : State) : (beginRun n s).a = s.a := rfl
@[simp] theorem beginRun_x (n : Nat) (s : State) : (beginRun n s).x = s.x := rfl
@[simp] theorem beginRun_y (n : Nat) (s : State) : (beginRun n s).y = s.y := rfl
@[simp] theorem beginRun_pc (n : Nat) (s : State) : (beginRun n s).pc = s.pc := rfl
@[simp] theorem beginRun_sp (n : Nat) (s : State) : (beginRun n s).sp = s.sp := rfl
@[simp] theorem beginRun_flags (n : Nat) (s : State) : (beginRun n s).flags = s.flags := rfl
@[simp] theorem beginRun_mem (n : Nat) (s : State) : (beginRun n s).mem = s.mem := rfl
@[simp] theorem beginRun_cyc (n : Nat) (s : State) : (beginRun n s).cyc = n := rfl
@[simp] theorem beginRun_ir (n : Nat) (s : State) : (beginRun n s).ir = s.ir := rfl
@[simp] theorem beginRun_halt (n : Nat) (s : State) : (beginRun n s).halt = .running := rfl

@[simp] theorem spend_a (n : Nat) (s : State) : (spend n s).a = s.a := rfl
@[simp] theorem spend_x (n : Nat) (s : State) : (spend n s).x = s.x := rfl
@[simp] theorem spend_y (n : Nat) (s : State) : (spend n s).y = s.y := rfl
@[simp] theorem spend_pc (n : Nat) (s : State) : (spend n s).pc = s.pc := rfl
@[simp] theorem spend_sp (n : Nat) (s : State) : (spend n s).sp = s.sp := rfl
@[simp] theorem spend_flags (n : Nat) (s : State) : (spend n s).flags = s.flags := rfl
@[simp] theorem spend_mem (n : Nat) (s : State) : (spend n s).mem = s.mem := rfl
@[simp] theorem spend_cyc (n : Nat) (s : State) : (spend n s).cyc = s.cyc - n := rfl
@[simp] theorem spend_ir (n : Nat) (s : State) : (spend n s).ir = s.ir := rfl
@[simp] theorem spend_halt (n : Nat) (s : State) : (spend n s).halt = s.halt := rfl

@[simp] theorem advance_a (n : Nat) (s : State) : (advance n s).a = s.a := rfl
@[simp] theorem advance_x (n : Nat) (s : State) : (advance n s).x = s.x := rfl
@[simp] theorem advance_y (n : Nat) (s : State) : (advance n s).y = s.y := rfl
@[simp] theorem advance_pc (n : Nat) (s : State) : (advance n s).pc = s.pc + BitVec.ofNat 16 n := rfl
@[simp] theorem advance_sp (n : Nat) (s : State) : (advance n s).sp = s.sp := rfl
@[simp] theorem advance_flags (n : Nat) (s : State) : (advance n s).flags = s.flags := rfl
@[simp] theorem advance_mem (n : Nat) (s : State) : (advance n s).mem = s.mem := rfl
@[simp] theorem advance_cyc (n : Nat) (s : State) : (advance n s).cyc = s.cyc - n := rfl
@[simp] theorem advance_ir (n : Nat) (s : State) : (advance n s).ir = s.ir := rfl
@[simp] theorem advance_halt (n : Nat) (s : State) : (advance n s).halt = s.halt := rfl

@[simp] theorem loadA_a (v : Byte) (s : State) : (loadA v s).a = v := rfl
@[simp] theorem loadA_x (v : Byte) (s : State) : (loadA v s).x = s.x := rfl
@[simp] theorem loadA_y (v : Byte) (s : State) : (loadA v s).y = s.y := rfl
@[simp] theorem loadA_pc (v : Byte) (s : State) : (loadA v s).pc = s.pc := rfl
@[simp] theorem loadA_sp (v : Byte) (s : State) : (loadA v s).sp = s.sp := rfl
@[simp] theorem loadA_flags (v : Byte) (s : State) : (loadA v s).flags = setZN v s.flags := rfl
@[simp] theorem loadA_mem (v : Byte) (s : State) : (loadA v s).mem = s.mem := rfl
@[simp] theorem loadA_cyc (v : Byte) (s : State) : (loadA v s).cyc = s.cyc := rfl
@[simp] theorem loadA_ir (v : Byte) (s : State) : (loadA v s).ir = s.ir := rfl
@[simp] theorem loadA_halt (v : Byte) (s : State) : (loadA v s).halt = s.halt := rfl

@[simp] theorem loadX_a (v : Byte) (s : State) : (loadX v s).a = s.a := rfl
@[simp] theorem loadX_x (v : Byte) (s : State) : (loadX v s).x = v := rfl
@[simp] theorem loadX_y (v : Byte) (s : State) : (loadX v s).y = s.y := rfl
@[simp] theorem loadX_pc (v : Byte) (s : State) : (loadX v s).pc = s.pc := rfl
@[simp] theorem loadX_sp (v : Byte) (s : State) : (loadX v s).sp = s.sp := rfl
@[simp] theorem loadX_flags (v : Byte) (s : State) : (loadX v s).flags = setZN v s.flags := rfl
@[simp] theorem loadX_mem (v : Byte) (s : State) : (loadX v s).mem = s.mem := rfl
@[simp] theorem loadX_cyc (v : Byte) (s : State) : (loadX v s).cyc = s.cyc := rfl
@[simp] theorem loadX_ir (v : Byte) (s : State) : (loadX v s).ir = s.ir := rfl
@[simp] theorem loadX_halt (v : Byte) (s : State) : (loadX v s).halt = s.halt := rfl

@[simp] theorem loadY_a (v : Byte) (s : State) : (loadY v s).a = s.a := rfl
@[simp] theorem loadY_x (v : Byte) (s : State) : (loadY v s).x = s.x := rfl
@[simp] theorem loadY_y (v : Byte) (s : State) : (loadY v s).y = v := rfl
@[simp] theorem loadY_pc (v : Byte) (s : State) : (loadY v s).pc = s.pc := rfl
@[simp] theorem loadY_sp (v : Byte) (s : State) : (loadY v s).sp = s.sp := rfl
@[simp] theorem loadY_flags (v : Byte) (s : State) : (loadY v s).flags = setZN v s.flags := rfl
@[simp] theorem loadY_mem (v : Byte) (s : State) : (loadY v s).mem = s.mem := rfl
@[simp] theorem loadY_cyc (v : Byte) (s : State) : (loadY v s).cyc = s.cyc := rfl
@[simp] theorem loadY_ir (v : Byte) (s : State) : (loadY v s).ir = s.ir := rfl
@[simp] theorem loadY_halt (v : Byte) (s : State) : (loadY v s).halt = s.halt := rfl

@[simp] theorem fetchOpcode_a (s : State) : (fetchOpcode s).a = s.a := rfl
@[simp] theorem fetchOpcode_x (s : State) : (fetchOpcode s).x = s.x := rfl
@[simp] theorem fetchOpcode_y (s : State) : (fetchOpcode s).y = s.y := rfl
@[simp] theorem fetchOpcode_pc (s : State) : (fetchOpcode s).pc = s.pc + 1 := rfl
@[simp] theorem fetchOpcode_sp (s : State) : (fetchOpcode s).sp = s.sp := rfl
@[simp] theorem fetchOpcode_flags (s : State) : (fetchOpcode s).flags = s.flags := rfl
@[simp] theorem fetchOpcode_mem (s : State) : (fetchOpcode s).mem = s.mem := rfl
@[simp] theorem fetchOpcode_cyc (s : State) : (fetchOpcode s).cyc = s.cyc - 1 := rfl
@[simp] theorem fetchOpcode_ir (s : State) : (fetchOpcode s).ir = some (s.mem.read s.pc) := rfl
@[simp] theorem fetchOpcode_halt (s : State) : (fetchOpcode s).halt = s.halt := rfl

@[simp] theorem setZN_c (v : Byte) (f : Flags) : (setZN v f).c = f.c := rfl
@[simp] theorem setZN_z (v : Byte) (f : Flags) : (setZN v f).z = (v == 0x00) := rfl
@[simp] theorem setZN_i (v : Byte) (f : Flags) : (setZN v f).i = f.i := rfl
@[simp] theorem setZN_d (v : Byte) (f : Flags) : (setZN v f).d = f.d := rfl
@[simp] theorem setZN_b (v : Byte) (f : Flags) : (setZN v f).b = f.b := rfl
@[simp] theorem setZN_v (v : Byte) (f : Flags) : (setZN v f).v = f.v := rfl
@[simp] theorem setZN_n (v : Byte) (f : Flags) : (setZN v f).n = v.msb := rfl

@[simp] theorem setCarry_c (bit : Bool) (f : Flags) : (setCarry bit f).c = bit := rfl
@[simp] theorem setCarry_z (bit : Bool) (f : Flags) : (setCarry bit f).z = f.z := rfl
@[simp] theorem setCarry_i (bit : Bool) (f : Flags) : (setCarry bit f).i = f.i := rfl
@[simp] theorem setCarry_d (bit : Bool) (f : Flags) : (setCarry bit f).d = f.d := rfl
@[simp] theorem setCarry_b (bit : Bool) (f : Flags) : (setCarry bit f).b = f.b := rfl
@[simp] theorem setCarry_v (bit : Bool) (f : Flags) : (setCarry bit f).v = f.v := rfl
@[simp] theorem setCarry_n (bit : Bool) (f : Flags) : (setCarry bit f).n = f.n := rfl

@[simp] theorem fetchByte_fst (s : State) : (fetchByte s).1 = s.mem.read s.pc := rfl
@[simp] theorem fetchByte_snd (s : State) : (fetchByte s).2 = advance 1 s := rfl
@[simp] theorem fetchWord_fst (s : State) : (fetchWord s).1 = wordOf (s.mem.read (s.pc + 1)) (s.mem.read s.pc) := rfl
@[simp] theorem fetchWord_snd (s : State) : (fetchWord s).2 = advance 2 s := rfl
@[simp] theorem readByte_fst (addr : Word) (s : State) : (readByte addr s).1 = s.mem.read addr := rfl
@[simp] theorem readByte_snd (addr : Word) (s : State) : (readByte addr s).2 = spend 1 s := rfl
@[simp] theorem raiseHalt_eq (r : HaltReason) (s : State) : raiseHalt r s = .next (haltWith r s) := rfl

end Sys2Proof.Machine
end

