-- ==== Sys2Proof/Laws/Ops.lean ====
section
/-! SUPPORT. For each shared operation, everything it can do. -/

namespace Sys2Proof.Machine

/-! ### The budget check -/

theorem withBudget_enough {f : Form} {rule : State → Result} {s : State} (h : f.cost - 1 ≤ s.cyc) :
    withBudget f rule s = rule s := by
  unfold withBudget; rw [if_neg (by omega)]

theorem withBudget_short {f : Form} {rule : State → Result} {s : State} (h : s.cyc < f.cost - 1) :
    withBudget f rule s = .next (haltWith .insufficientBudget s) := by
  unfold withBudget; rw [if_pos h]; rfl

theorem withBudget_cases {f : Form} {rule : State → Result} {s t : State} (h : withBudget f rule s = .next t) :
    (s.cyc < f.cost - 1 ∧ t = haltWith .insufficientBudget s) ∨ (f.cost - 1 ≤ s.cyc ∧ rule s = .next t) := by
  rcases Nat.lt_or_ge s.cyc (f.cost - 1) with hlt | hge
  · rw [withBudget_short hlt] at h; cases h; exact .inl ⟨hlt, rfl⟩
  · rw [withBudget_enough hge] at h; exact .inr ⟨hge, h⟩

/-! ### The stack -/

theorem stackBase_legal : config.stackPageBase.toNat % 256 = 0 ∧ 0x0100 ≤ config.stackPageBase.toNat ∧
    config.stackPageBase.toNat ≤ 0xFF00 := by decide

theorem inStackPage_iff {a : Int} : inStackPage a = true ↔
    (config.stackPageBase.toNat : Int) ≤ a ∧ a ≤ (config.stackPageBase.toNat : Int) + 0xFF := by
  simp only [inStackPage, Bool.and_eq_true, decide_eq_true_eq]; simp only [stackPageSize]; omega

/-- PushWord does not fault iff SP - STACK_PAGE_BASE is in 1..255 (R75). -/
theorem canPush_iff {sp : Word} : canPush sp = true ↔
    config.stackPageBase.toNat + 1 ≤ sp.toNat ∧ sp.toNat ≤ config.stackPageBase.toNat + 0xFF := by
  simp only [canPush, Bool.and_eq_true, inStackPage_iff]; omega

/-- PopWord does not fault iff SP - STACK_PAGE_BASE is in -1..253 (R75). -/
theorem canPop_iff {sp : Word} : canPop sp = true ↔
    config.stackPageBase.toNat ≤ sp.toNat + 1 ∧ sp.toNat ≤ config.stackPageBase.toNat + 0xFD := by
  simp only [canPop, Bool.and_eq_true, inStackPage_iff]; omega

theorem pushWord_ok {v : Word} {s : State} (h : canPush s.sp = true) :
    pushWord v s = some { s with
      mem := (s.mem.write s.sp (hiByte v)).write (s.sp - 1) (loByte v)
      sp := s.sp - 2
      cyc := s.cyc - 2 } := by
  unfold pushWord; rw [if_pos h]

theorem pushWord_none {v : Word} {s : State} (h : canPush s.sp = false) : pushWord v s = none := by
  unfold pushWord; rw [if_neg (by simp [h])]

theorem popWord_ok {s : State} (h : canPop s.sp = true) :
    popWord s = some (wordOf (s.mem.read (s.sp + 2)) (s.mem.read (s.sp + 1)),
      { s with sp := s.sp + 2, cyc := s.cyc - 2 }) := by
  unfold popWord; rw [if_pos h]

theorem popWord_none {s : State} (h : canPop s.sp = false) : popWord s = none := by
  unfold popWord; rw [if_neg (by simp [h])]

theorem sub_one_ne (w : Word) : w - 1 ≠ w := by
  intro h; have := congrArg BitVec.toNat h; simp [BitVec.toNat_sub] at this; omega

end Sys2Proof.Machine
end

