-- ==== Sys2Proof/Laws/Exec.lean ====
section
/-! SUPPORT. What each meaning, and each loop iteration, can answer: stated once, so that no later proof unfolds them. -/

namespace Sys2Proof.Machine

variable {s t : State}

/-! ### The dispatch, arm by arm, and the meanings once the budget check has passed -/

@[simp] theorem exec_ldaImm (imm : Byte) (s : State) : exec (.ldaImm imm) s = execLdaImm imm s := rfl
@[simp] theorem exec_ldaZp (zp : Byte) (s : State) : exec (.ldaZp zp) s = execLdaZp zp s := rfl
@[simp] theorem exec_ldaZpX (zp : Byte) (s : State) : exec (.ldaZpX zp) s = execLdaZpX zp s := rfl
@[simp] theorem exec_ldxImm (imm : Byte) (s : State) : exec (.ldxImm imm) s = execLdxImm imm s := rfl
@[simp] theorem exec_ldyImm (imm : Byte) (s : State) : exec (.ldyImm imm) s = execLdyImm imm s := rfl
@[simp] theorem exec_jsr (target : Word) (s : State) : exec (.jsr target) s = execJsr target s := rfl
@[simp] theorem exec_rts (s : State) : exec .rts s = execRts s := rfl
@[simp] theorem exec_clc (s : State) : exec .clc s = execClc s := rfl
@[simp] theorem exec_sec (s : State) : exec .sec s = execSec s := rfl
@[simp] theorem exec_tax (s : State) : exec .tax s = execTax s := rfl
@[simp] theorem exec_tay (s : State) : exec .tay s = execTay s := rfl
@[simp] theorem exec_txa (s : State) : exec .txa s = execTxa s := rfl
@[simp] theorem exec_tya (s : State) : exec .tya s = execTya s := rfl

theorem execLdaImm_enough {imm : Byte} (h : 1 ≤ s.cyc) : execLdaImm imm s = .next (loadA imm (advance 1 s)) := by
  rw [execLdaImm, withBudget_enough (by exact h)]

theorem execLdaZp_enough {zp : Byte} (h : 2 ≤ s.cyc) :
    execLdaZp zp s = .next (loadA (s.mem.read (zeroPageEa zp)) (spend 1 (advance 1 s))) := by
  rw [execLdaZp, withBudget_enough (by exact h)]; rfl

theorem execLdaZpX_enough {zp : Byte} (h : 3 ≤ s.cyc) :
    execLdaZpX zp s = .next (loadA (s.mem.read (zeroPageXEa zp s.x)) (spend 1 (spend 1 (advance 1 s)))) := by
  rw [execLdaZpX, withBudget_enough (by exact h)]; rfl

theorem execLdxImm_enough {imm : Byte} (h : 1 ≤ s.cyc) : execLdxImm imm s = .next (loadX imm (advance 1 s)) := by
  rw [execLdxImm, withBudget_enough (by exact h)]

theorem execLdyImm_enough {imm : Byte} (h : 1 ≤ s.cyc) : execLdyImm imm s = .next (loadY imm (advance 1 s)) := by
  rw [execLdyImm, withBudget_enough (by exact h)]

theorem execJsr_push {target : Word} (h : 5 ≤ s.cyc) (hp : canPush s.sp = true) :
    execJsr target s = .next { s with
      pc := target
      sp := s.sp - 2
      mem := (s.mem.write s.sp (hiByte (s.pc + 2 - 1))).write (s.sp - 1) (loByte (s.pc + 2 - 1))
      cyc := s.cyc - 2 - 2 - 1 } := by
  rw [execJsr, withBudget_enough (by exact h), pushWord_ok (by simpa using hp)]; rfl

theorem execJsr_fault {target : Word} (h : 5 ≤ s.cyc) (hp : canPush s.sp = false) :
    execJsr target s = .next (haltWith .stackFault (advance 2 s)) := by
  rw [execJsr, withBudget_enough (by exact h), pushWord_none (by simpa using hp)]; rfl

theorem execRts_pop (h : 5 ≤ s.cyc) (hp : canPop s.sp = true) :
    execRts s = .next { s with
      pc := wordOf (s.mem.read (s.sp + 2)) (s.mem.read (s.sp + 1)) + 1
      sp := s.sp + 2
      cyc := s.cyc - 2 - 3 } := by
  rw [execRts, withBudget_enough (by exact h), popWord_ok hp]; rfl

theorem execRts_fault (h : 5 ≤ s.cyc) (hp : canPop s.sp = false) :
    execRts s = .next (haltWith .stackFault s) := by
  rw [execRts, withBudget_enough (by exact h), popWord_none hp]; rfl

/-- The 1-cycle instructions: the budget check always passes (R81). -/
theorem withBudget_one {f : Form} {rule : State → Result} (hf : f.cost = 1) : withBudget f rule s = rule s :=
  withBudget_enough (by omega)

theorem execClc_eq (s : State) : execClc s = .next { s with flags := setCarry false s.flags } := by
  rw [execClc, withBudget_one (by rfl)]

theorem execSec_eq (s : State) : execSec s = .next { s with flags := setCarry true s.flags } := by
  rw [execSec, withBudget_one (by rfl)]

theorem execTax_eq (s : State) : execTax s = .next (loadX s.a s) := by rw [execTax, withBudget_one (by rfl)]

theorem execTay_eq (s : State) : execTay s = .next (loadY s.a s) := by rw [execTay, withBudget_one (by rfl)]

theorem execTxa_eq (s : State) : execTxa s = .next (loadA s.x s) := by rw [execTxa, withBudget_one (by rfl)]

theorem execTya_eq (s : State) : execTya s = .next (loadA s.y s) := by rw [execTya, withBudget_one (by rfl)]

/-- Whatever the instruction, a budget short of its additional cost stops it (R81). -/
theorem exec_short {i : Instr} (h : s.cyc < i.form.cost - 1) : exec i s = .next (haltWith .insufficientBudget s) := by
  cases i with
  | ldaImm _ => rw [exec_ldaImm, execLdaImm, withBudget_short (by exact h)]
  | ldaZp _ => rw [exec_ldaZp, execLdaZp, withBudget_short (by exact h)]
  | ldaZpX _ => rw [exec_ldaZpX, execLdaZpX, withBudget_short (by exact h)]
  | ldxImm _ => rw [exec_ldxImm, execLdxImm, withBudget_short (by exact h)]
  | ldyImm _ => rw [exec_ldyImm, execLdyImm, withBudget_short (by exact h)]
  | jsr _ => rw [exec_jsr, execJsr, withBudget_short (by exact h)]
  | rts => rw [exec_rts, execRts, withBudget_short (by exact h)]
  | clc => exact absurd (by exact h : s.cyc < 0) (Nat.not_lt_zero _)
  | sec => exact absurd (by exact h : s.cyc < 0) (Nat.not_lt_zero _)
  | tax => exact absurd (by exact h : s.cyc < 0) (Nat.not_lt_zero _)
  | tay => exact absurd (by exact h : s.cyc < 0) (Nat.not_lt_zero _)
  | txa => exact absurd (by exact h : s.cyc < 0) (Nat.not_lt_zero _)
  | tya => exact absurd (by exact h : s.cyc < 0) (Nat.not_lt_zero _)

/-! ### What each meaning can answer -/

theorem execLdaImm_cases {imm : Byte} (h : execLdaImm imm s = .next t) :
    (s.cyc < 1 ∧ t = haltWith .insufficientBudget s) ∨ (1 ≤ s.cyc ∧ t = loadA imm (advance 1 s)) := by
  rcases withBudget_cases h with ⟨hc, ht⟩ | ⟨hc, ht⟩
  · exact .inl ⟨hc, ht⟩
  · exact .inr ⟨hc, (Host.Outcome.next.inj ht).symm⟩

theorem execLdaZp_cases {zp : Byte} (h : execLdaZp zp s = .next t) :
    (s.cyc < 2 ∧ t = haltWith .insufficientBudget s) ∨
      (2 ≤ s.cyc ∧ t = loadA (s.mem.read (zeroPageEa zp)) (spend 1 (advance 1 s))) := by
  rcases withBudget_cases h with ⟨hc, ht⟩ | ⟨hc, ht⟩
  · exact .inl ⟨hc, ht⟩
  · exact .inr ⟨hc, (Host.Outcome.next.inj ht).symm⟩

theorem execLdaZpX_cases {zp : Byte} (h : execLdaZpX zp s = .next t) :
    (s.cyc < 3 ∧ t = haltWith .insufficientBudget s) ∨
      (3 ≤ s.cyc ∧ t = loadA (s.mem.read (zeroPageXEa zp s.x)) (spend 1 (spend 1 (advance 1 s)))) := by
  rcases withBudget_cases h with ⟨hc, ht⟩ | ⟨hc, ht⟩
  · exact .inl ⟨hc, ht⟩
  · exact .inr ⟨hc, (Host.Outcome.next.inj ht).symm⟩

theorem execLdxImm_cases {imm : Byte} (h : execLdxImm imm s = .next t) :
    (s.cyc < 1 ∧ t = haltWith .insufficientBudget s) ∨ (1 ≤ s.cyc ∧ t = loadX imm (advance 1 s)) := by
  rcases withBudget_cases h with ⟨hc, ht⟩ | ⟨hc, ht⟩
  · exact .inl ⟨hc, ht⟩
  · exact .inr ⟨hc, (Host.Outcome.next.inj ht).symm⟩

theorem execLdyImm_cases {imm : Byte} (h : execLdyImm imm s = .next t) :
    (s.cyc < 1 ∧ t = haltWith .insufficientBudget s) ∨ (1 ≤ s.cyc ∧ t = loadY imm (advance 1 s)) := by
  rcases withBudget_cases h with ⟨hc, ht⟩ | ⟨hc, ht⟩
  · exact .inl ⟨hc, ht⟩
  · exact .inr ⟨hc, (Host.Outcome.next.inj ht).symm⟩

theorem execJsr_cases {target : Word} (h : execJsr target s = .next t) :
    (s.cyc < 5 ∧ t = haltWith .insufficientBudget s) ∨
      (5 ≤ s.cyc ∧ canPush s.sp = false ∧ t = haltWith .stackFault (advance 2 s)) ∨
      (5 ≤ s.cyc ∧ canPush s.sp = true ∧ t = { s with
        pc := target
        sp := s.sp - 2
        mem := (s.mem.write s.sp (hiByte (s.pc + 2 - 1))).write (s.sp - 1) (loByte (s.pc + 2 - 1))
        cyc := s.cyc - 2 - 2 - 1 }) := by
  rcases withBudget_cases h with ⟨hc, ht⟩ | ⟨hc, ht⟩
  · exact .inl ⟨hc, ht⟩
  · refine .inr ?_
    cases hp : canPush s.sp with
    | false =>
      rw [pushWord_none (by simpa using hp)] at ht
      exact .inl ⟨hc, rfl, (Host.Outcome.next.inj ht).symm⟩
    | true =>
      rw [pushWord_ok (by simpa using hp)] at ht
      exact .inr ⟨hc, rfl, (Host.Outcome.next.inj ht).symm⟩

theorem execRts_cases (h : execRts s = .next t) :
    (s.cyc < 5 ∧ t = haltWith .insufficientBudget s) ∨
      (5 ≤ s.cyc ∧ canPop s.sp = false ∧ t = haltWith .stackFault s) ∨
      (5 ≤ s.cyc ∧ canPop s.sp = true ∧ t = { s with
        pc := wordOf (s.mem.read (s.sp + 2)) (s.mem.read (s.sp + 1)) + 1
        sp := s.sp + 2
        cyc := s.cyc - 2 - 3 }) := by
  rcases withBudget_cases h with ⟨hc, ht⟩ | ⟨hc, ht⟩
  · exact .inl ⟨hc, ht⟩
  · refine .inr ?_
    cases hp : canPop s.sp with
    | false =>
      rw [popWord_none hp] at ht
      exact .inl ⟨hc, rfl, (Host.Outcome.next.inj ht).symm⟩
    | true =>
      rw [popWord_ok hp] at ht
      exact .inr ⟨hc, rfl, (Host.Outcome.next.inj ht).symm⟩

theorem execClc_cases (h : execClc s = .next t) : t = { s with flags := setCarry false s.flags } := by
  rw [execClc_eq] at h; exact (Host.Outcome.next.inj h).symm

theorem execSec_cases (h : execSec s = .next t) : t = { s with flags := setCarry true s.flags } := by
  rw [execSec_eq] at h; exact (Host.Outcome.next.inj h).symm

theorem execTax_cases (h : execTax s = .next t) : t = loadX s.a s := by
  rw [execTax_eq] at h; exact (Host.Outcome.next.inj h).symm

theorem execTay_cases (h : execTay s = .next t) : t = loadY s.a s := by
  rw [execTay_eq] at h; exact (Host.Outcome.next.inj h).symm

theorem execTxa_cases (h : execTxa s = .next t) : t = loadA s.x s := by
  rw [execTxa_eq] at h; exact (Host.Outcome.next.inj h).symm

theorem execTya_cases (h : execTya s = .next t) : t = loadA s.y s := by
  rw [execTya_eq] at h; exact (Host.Outcome.next.inj h).symm

/-! ### One loop iteration -/

theorem step_not_running (h : s.halt ≠ .running) : step s = .next s := by
  simp [step, loopIteration, h]

theorem step_budget_exhausted (h : s.halt = .running) (hc : s.cyc = 0) :
    step s = .next (haltWith .budgetExhausted s) := by
  simp [step, loopIteration, h, hc]

theorem step_unrecognized (h : s.halt = .running) (hc : s.cyc ≠ 0) (hl : lookup (s.mem.read s.pc) = none) :
    step s = .next (haltWith .unrecognizedOpcode (fetchOpcode s)) := by
  simp [step, loopIteration, h, hc, instrBytes, decode_of_unrecognized hl]

theorem step_exec {i : Instr} {rest : List Byte} (h : s.halt = .running) (hc : s.cyc ≠ 0)
    (hd : decode (instrBytes s) = .ok (i, rest)) : step s = exec i (fetchOpcode s) := by
  simp [step, loopIteration, h, hc, hd]

/-- A step at a recognised opcode byte runs that form, with the operand bytes that follow it. -/
theorem step_of_opcode (f : Form) (h : s.halt = .running) (hc : s.cyc ≠ 0) (hb : s.mem.read s.pc = f.opcode) :
    ∃ i rest, decodeOperand f [s.mem.read (s.pc + 1), s.mem.read (s.pc + 2)] = .ok (i, rest) ∧
      step s = exec i (fetchOpcode s) := by
  have hl := lookup_eq_some.2 hb
  have ⟨i, rest, hi⟩ : ∃ i rest, decodeOperand f [s.mem.read (s.pc + 1), s.mem.read (s.pc + 2)] = .ok (i, rest) := by
    cases f <;> exact ⟨_, _, rfl⟩
  exact ⟨i, rest, hi, step_exec h hc (by rw [instrBytes, decode_of_lookup hl, hi])⟩

/-- Everything one step can do (R78 to R82). -/
theorem step_cases (s : State) :
    (s.halt ≠ .running ∧ step s = .next s) ∨
      (s.halt = .running ∧ s.cyc = 0 ∧ step s = .next (haltWith .budgetExhausted s)) ∨
      (s.halt = .running ∧ s.cyc ≠ 0 ∧ lookup (s.mem.read s.pc) = none ∧
        step s = .next (haltWith .unrecognizedOpcode (fetchOpcode s))) ∨
      ∃ i rest, s.halt = .running ∧ s.cyc ≠ 0 ∧ decode (instrBytes s) = .ok (i, rest) ∧
        s.mem.read s.pc = i.form.opcode ∧ step s = exec i (fetchOpcode s) := by
  by_cases h : s.halt = .running
  · by_cases hc : s.cyc = 0
    · exact .inr (.inl ⟨h, hc, step_budget_exhausted h hc⟩)
    · rcases decode_three_cases (s.mem.read s.pc) (s.mem.read (s.pc + 1)) (s.mem.read (s.pc + 2)) with
        ⟨hl, _⟩ | ⟨i, rest, hb, hd⟩
      · exact .inr (.inr (.inl ⟨h, hc, hl, step_unrecognized h hc hl⟩))
      · exact .inr (.inr (.inr ⟨i, rest, h, hc, hd, hb, step_exec h hc hd⟩))
  · exact .inl ⟨h, step_not_running h⟩

end Sys2Proof.Machine
end

