-- ==== Sys2Proof/Laws/PerInstr.lean ====
section
/-! SUPPORT. Statements made per instruction: one lemma per constructor of Instr. -/

namespace Sys2Proof.Laws

/-- The encoder writes as many bytes as the form's format has (R51, R56), at most three (R50), the first of which is the
form's opcode (R53). -/
def EncodedBytes.Statement (i : Instr) : Prop :=
  (encode i).length = i.form.length ∧ i.form.length ≤ 3 ∧ (encode i).head? = some i.form.opcode

theorem EncodedBytes.ldaImm (imm : Byte) : EncodedBytes.Statement (.ldaImm imm) := ⟨rfl, Form.length_le _, rfl⟩
theorem EncodedBytes.ldaZp (zp : Byte) : EncodedBytes.Statement (.ldaZp zp) := ⟨rfl, Form.length_le _, rfl⟩
theorem EncodedBytes.ldaZpX (zp : Byte) : EncodedBytes.Statement (.ldaZpX zp) := ⟨rfl, Form.length_le _, rfl⟩
theorem EncodedBytes.ldxImm (imm : Byte) : EncodedBytes.Statement (.ldxImm imm) := ⟨rfl, Form.length_le _, rfl⟩
theorem EncodedBytes.ldyImm (imm : Byte) : EncodedBytes.Statement (.ldyImm imm) := ⟨rfl, Form.length_le _, rfl⟩
theorem EncodedBytes.jsr (target : Word) : EncodedBytes.Statement (.jsr target) := ⟨rfl, Form.length_le _, rfl⟩
theorem EncodedBytes.rts : EncodedBytes.Statement .rts := ⟨rfl, Form.length_le _, rfl⟩
theorem EncodedBytes.clc : EncodedBytes.Statement .clc := ⟨rfl, Form.length_le _, rfl⟩
theorem EncodedBytes.sec : EncodedBytes.Statement .sec := ⟨rfl, Form.length_le _, rfl⟩
theorem EncodedBytes.tax : EncodedBytes.Statement .tax := ⟨rfl, Form.length_le _, rfl⟩
theorem EncodedBytes.tay : EncodedBytes.Statement .tay := ⟨rfl, Form.length_le _, rfl⟩
theorem EncodedBytes.txa : EncodedBytes.Statement .txa := ⟨rfl, Form.length_le _, rfl⟩
theorem EncodedBytes.tya : EncodedBytes.Statement .tya := ⟨rfl, Form.length_le _, rfl⟩

end Sys2Proof.Laws
end

