-- ==== Sys2Proof/Laws/Run.lean ====
section
/-! SUPPORT. What exec can answer for any instruction, and how a run unrolls, in the loop's terms and in the host's. -/

namespace Sys2Proof.Machine

/-- Everything exec can answer: the budget is short, a stack access leaves the page, or the instruction completes and spends
its additional cost. -/
theorem exec_answers (i : Instr) (s : State) : ∃ t, exec i s = .next t ∧
   ((s.cyc < i.form.cost - 1 ∧ t = haltWith .insufficientBudget s) ∨
    (i.form.cost - 1 ≤ s.cyc ∧ i.form = .jsr ∧ canPush s.sp = false ∧ t = haltWith .stackFault (advance 2 s)) ∨
    (i.form.cost - 1 ≤ s.cyc ∧ i.form = .rts ∧ canPop s.sp = false ∧ t = haltWith .stackFault s) ∨
    (i.form.cost - 1 ≤ s.cyc ∧ t.halt = s.halt ∧ t.cyc + (i.form.cost - 1) = s.cyc ∧
      ¬ (i.form = .jsr ∧ canPush s.sp = false) ∧ ¬ (i.form = .rts ∧ canPop s.sp = false))) := by
  by_cases hc : s.cyc < i.form.cost - 1
  · have : exec i s = .next (haltWith .insufficientBudget s) := by
      exact exec_short hc
    exact ⟨_, this, .inl ⟨hc, rfl⟩⟩
  · have hc' : i.form.cost - 1 ≤ s.cyc := by omega
    cases i with
    | jsr x =>
      cases hp : canPush s.sp with
      | true => exact ⟨_, execJsr_push hc' hp, .inr (.inr (.inr ⟨hc', rfl, by change 5 ≤ s.cyc at hc'; show s.cyc - 2 - 2 - 1 + 5 = _; omega, by simp, by simp [Instr.form]⟩))⟩
      | false => exact ⟨_, execJsr_fault hc' hp, .inr (.inl ⟨hc', rfl, rfl, rfl⟩)⟩
    | rts =>
      cases hp : canPop s.sp with
      | true => exact ⟨_, execRts_pop hc' hp, .inr (.inr (.inr ⟨hc', rfl, by change 5 ≤ s.cyc at hc'; show s.cyc - 2 - 3 + 5 = _; omega, by simp [Instr.form], by simp⟩))⟩
      | false => exact ⟨_, execRts_fault hc' hp, .inr (.inr (.inl ⟨hc', rfl, rfl, rfl⟩))⟩
    | ldaImm x => exact ⟨_, execLdaImm_enough hc', .inr (.inr (.inr ⟨hc', rfl, Nat.sub_add_cancel hc', by simp [Instr.form], by simp [Instr.form]⟩))⟩
    | ldxImm x => exact ⟨_, execLdxImm_enough hc', .inr (.inr (.inr ⟨hc', rfl, Nat.sub_add_cancel hc', by simp [Instr.form], by simp [Instr.form]⟩))⟩
    | ldyImm x => exact ⟨_, execLdyImm_enough hc', .inr (.inr (.inr ⟨hc', rfl, Nat.sub_add_cancel hc', by simp [Instr.form], by simp [Instr.form]⟩))⟩
    | ldaZp x => exact ⟨_, execLdaZp_enough hc', .inr (.inr (.inr ⟨hc', rfl, by change 2 ≤ s.cyc at hc'; show s.cyc - 1 - 1 + 2 = _; omega, by simp [Instr.form], by simp [Instr.form]⟩))⟩
    | ldaZpX x => exact ⟨_, execLdaZpX_enough hc', .inr (.inr (.inr ⟨hc', rfl, by change 3 ≤ s.cyc at hc'; show s.cyc - 1 - 1 - 1 + 3 = _; omega, by simp [Instr.form], by simp [Instr.form]⟩))⟩
    | clc => exact ⟨_, execClc_eq _, .inr (.inr (.inr ⟨hc', rfl, rfl, by simp [Instr.form], by simp [Instr.form]⟩))⟩
    | sec => exact ⟨_, execSec_eq _, .inr (.inr (.inr ⟨hc', rfl, rfl, by simp [Instr.form], by simp [Instr.form]⟩))⟩
    | tax => exact ⟨_, execTax_eq _, .inr (.inr (.inr ⟨hc', rfl, rfl, by simp [Instr.form], by simp [Instr.form]⟩))⟩
    | tay => exact ⟨_, execTay_eq _, .inr (.inr (.inr ⟨hc', rfl, rfl, by simp [Instr.form], by simp [Instr.form]⟩))⟩
    | txa => exact ⟨_, execTxa_eq _, .inr (.inr (.inr ⟨hc', rfl, rfl, by simp [Instr.form], by simp [Instr.form]⟩))⟩
    | tya => exact ⟨_, execTya_eq _, .inr (.inr (.inr ⟨hc', rfl, rfl, by simp [Instr.form], by simp [Instr.form]⟩))⟩

theorem runLoop_of_step {n : Nat} {s t : State} (h : step s = .next t) : runLoop (n + 1) s = runLoop n t := by
  have : loopIteration s = .next t := h
  simp [runLoop, this]

theorem runLoop_not_running {n : Nat} {s : State} (h : s.halt ≠ .running) : runLoop n s = .next s := by
  induction n with
  | zero => rfl
  | succ n ih => rw [runLoop_of_step (step_not_running h), ih]

theorem run_of_step {M : Host.Core} {n : Nat} {s t : M.State} (h : M.step s = .next t) : M.run (n + 1) s = M.run n t := by
  simp [Host.Core.run, h]

/-- The host's run of the machine is the loop taken as often. -/
theorem core_run_eq_runLoop (n : Nat) (s : State) : Sys2Proof.core.run n s = runLoop n s := by
  induction n generalizing s with
  | zero => rfl
  | succ n ih =>
    have ⟨t, ht⟩ : ∃ t, step s = .next t := by
      rcases step_cases s with ⟨_, h⟩ | ⟨_, _, h⟩ | ⟨_, _, _, h⟩ | ⟨i, _, _, _, _, _, h⟩
      · exact ⟨_, h⟩
      · exact ⟨_, h⟩
      · exact ⟨_, h⟩
      · have ⟨t, ht, _⟩ := exec_answers i (fetchOpcode s)
        exact ⟨t, h.trans ht⟩
    rw [runLoop_of_step ht, ← ih]
    exact run_of_step (M := Sys2Proof.core) ht

end Sys2Proof.Machine
end

