-- ==== Sys2Proof/Tests/Slice0.lean ====
section
/-! SUPPORT. Tests, each from the spec's text: the word tests from R51, R53 and the encoding vectors of 95_test_vectors.md,
the one-step tests from its vectors (named V<n>), the smoke tests from R5's constraints. Then one witness per obligation
that has hypotheses. -/

namespace Sys2Proof.Tests

open Sys2Proof.Machine

/-! ### Helpers -/

/-- The reset state after the host has written these cells. -/
def load (cells : List (Word × Byte)) : State :=
  { State.reset with mem := cells.foldl (fun m c => m.write c.1 c.2) State.reset.mem }

/-- The loaded state with a run of this budget begun. -/
def running (budget : Nat) (cells : List (Word × Byte)) : State := beginRun budget (load cells)

/-- The next state, if the answer is one. -/
def nextOf : Result → Option State
  | .next t => some t
  | .fault _ => none
  | .refused _ => none

/-- The state after one step. -/
def after (s : State) : Option State := nextOf (step s)

/-- A, X, Y, Z, N of an answer. -/
def axyzn (r : Option State) : Option (Byte × Byte × Byte × Bool × Bool) :=
  r.map fun t => (t.a, t.x, t.y, t.flags.z, t.flags.n)

/-- PC, SP, CYC, IR, HALT of an answer. -/
def control (r : Option State) : Option (Word × Word × Nat × Option Byte × HaltStatus) :=
  r.map fun t => (t.pc, t.sp, t.cyc, t.ir, t.halt)

/-- The instruction decoded, and how many bytes it left over. -/
def decoded (bytes : List Byte) : Option (Instr × Nat) :=
  match decode bytes with
  | .ok (i, rest) => some (i, rest.length)
  | .error _ => none

/-- The state a host operation leaves, and its reply. -/
def hostAfter (op : HostOp) (m : Option State) : Option (State × HostReply) :=
  match hostMove op m with
  | .next r => some r
  | .fault _ => none
  | .refused _ => none

/-! ### Words: R51, R53 and the encoding vectors -/

theorem test_decode_lda_imm : decoded [0b10101001, 0x42] = some (.ldaImm 0x42, 0) := by decide
theorem test_decode_lda_zp : decoded [0b10100101, 0x80] = some (.ldaZp 0x80, 0) := by decide
theorem test_decode_lda_zpx : decoded [0b10110101, 0xFF] = some (.ldaZpX 0xFF, 0) := by decide
theorem test_decode_ldx_imm : decoded [0b10100010, 0x10] = some (.ldxImm 0x10, 0) := by decide
theorem test_decode_ldy_imm : decoded [0b10100000, 0x00] = some (.ldyImm 0x00, 0) := by decide
theorem test_decode_jsr : decoded [0b00100000, 0x34, 0x12] = some (.jsr 0x1234, 0) := by decide
theorem test_decode_jsr_low_byte_first : decoded [0x20, 0x00, 0x40] = some (.jsr 0x4000, 0) := by decide
theorem test_decode_rts : decoded [0b01100000, 0x00, 0x00] = some (.rts, 2) := by decide
theorem test_decode_clc : decoded [0b00011000] = some (.clc, 0) := by decide
theorem test_decode_sec : decoded [0b00111000] = some (.sec, 0) := by decide
theorem test_decode_tax : decoded [0b10101010] = some (.tax, 0) := by decide
theorem test_decode_tay : decoded [0b10101000] = some (.tay, 0) := by decide
theorem test_decode_txa : decoded [0b10001010] = some (.txa, 0) := by decide
theorem test_decode_tya : decoded [0b10011000] = some (.tya, 0) := by decide

/-- The unrecognised bytes of the encoding vectors: "`00`, `EA`, `FF`, `4C`, `A1`, `A6`, `AD`, `85`, `A4`". -/
theorem test_decode_unrecognized :
    (([0x00, 0xEA, 0xFF, 0x4C, 0xA1, 0xA6, 0xAD, 0x85, 0xA4] : List Byte).all
      fun op => lookup op == none && instrLength op == 1 && decoded [op, 0x00, 0x00] == none) = true := by decide

/-- `ins` of R51: byte 0 is bits 7:0, byte 1 bits 15:8, byte 2 bits 23:16. -/
theorem test_table_word_jsr : decodeTableWord 24 0x123420 = some (.jsr 0x1234) := by decide
theorem test_table_word_lda_imm : decodeTableWord 16 0x42A9 = some (.ldaImm 0x42) := by decide
theorem test_table_word_tya : decodeTableWord 8 0x98 = some .tya := by decide
theorem test_table_word_unrecognized : decodeTableWord 8 0xEA = none := by decide

/-- The text of R57 for the bytes of the encoding vectors. -/
theorem test_asm : [Instr.ldaImm 0x42, .ldaZp 0x80, .ldaZpX 0xFF, .ldxImm 0x10, .ldyImm 0x00, .jsr 0x4000, .rts].map Instr.asm
    = ["LDA #$42", "LDA $80", "LDA $FF,X", "LDX #$10", "LDY #$00", "JSR $4000", "RTS"] := by decide

/-- Length and cost of each row of the encoding vectors. -/
theorem test_length_and_cost : Form.all.map (fun f => (f.length, f.cost)) =
    [(2, 2), (2, 3), (2, 4), (2, 2), (2, 2), (3, 6), (1, 6), (1, 1), (1, 1), (1, 1), (1, 1), (1, 1), (1, 1)] := by decide

/-! ### Well-formedness: R5's constraints, each refused where it is broken -/

theorem test_wf_config : config.wf = true := by decide
theorem test_wf_duplicate_opcode :
    ({ config with opcSec := 0x18 } : Config).opcodesDistinct = false ∧ ({ config with opcSec := 0x18 } : Config).wf = false := by
  decide
theorem test_wf_opcode_of_rts_taken_again : ({ config with opcTya := 0x60 } : Config).wf = false := by decide
theorem test_wf_stack_page_misaligned : ({ config with stackPageBase := 0x0180 } : Config).stackPageLegal = false := by decide
theorem test_wf_stack_page_too_low : ({ config with stackPageBase := 0x0000 } : Config).stackPageLegal = false := by decide
theorem test_wf_stack_page_too_high : ({ config with stackPageBase := 0xFFFF } : Config).stackPageLegal = false := by decide
theorem test_wf_stack_page_ill : ({ config with stackPageBase := 0x0000, spReset := 0x00FF } : Config).wf = false := by decide
theorem test_wf_sp_reset_above : ({ config with spReset := 0x0200 } : Config).spResetLegal = false := by decide
theorem test_wf_sp_reset_below : ({ config with spReset := 0x00FF } : Config).wf = false := by decide
theorem test_wf_stack_page_edges : ({ config with stackPageBase := 0xFF00, spReset := 0xFFFF } : Config).wf = true := by decide
theorem test_wf_memory_unsorted : Memory.wf [(2, 0x01), (1, 0x01)] = false := by decide
theorem test_wf_memory_repeated : Memory.wf [(1, 0x01), (1, 0x02)] = false := by decide
theorem test_wf_memory_zero_listed : Memory.wf [(1, 0x00)] = false := by decide
theorem test_wf_memory_beyond_the_end : Memory.wf [(65536, 0x01)] = false := by decide

/-! ### One step: the vectors of 95_test_vectors.md -/

/-- V4. -/
theorem test_lda_imm_negative : axyzn (after (running 2 [(0xFFFC, 0xA9), (0xFFFD, 0x80)])) =
    some (0x80, 0x00, 0x00, false, true) := by decide
/-- V1. -/
theorem test_lda_imm_zero : axyzn (after (running 2 [(0xFFFC, 0xA9)])) = some (0x00, 0x00, 0x00, true, false) := by decide
/-- V10. -/
theorem test_lda_zp : axyzn (after (running 3 [(0xFFFC, 0xA5), (0xFFFD, 0x80), (0x0080, 0x9C)])) =
    some (0x9C, 0x00, 0x00, false, true) := by decide
/-- V11b. -/
theorem test_lda_zp_top_of_page : axyzn (after (running 3 [(0xFFFC, 0xA5), (0xFFFD, 0xFF), (0x00FF, 0x01), (0x01FF, 0xEE)])) =
    some (0x01, 0x00, 0x00, false, false) := by decide
/-- V12, from its second instruction on. -/
theorem test_lda_zpx_wraps : axyzn (after { running 4 [(0xFFFE, 0xB5), (0xFFFF, 0xFF), (0x0000, 0x5A), (0x0100, 0xEE)] with
      pc := 0xFFFE, x := 0x01 }) = some (0x5A, 0x01, 0x00, false, false) := by decide
/-- V13, from its second instruction on: PC wraps to 0x0000. -/
theorem test_lda_zpx_pc_wraps : control (after { running 4 [(0xFFFE, 0xB5), (0xFFFF, 0x80), (0x007F, 0xC3), (0x017F, 0xEE)] with
      pc := 0xFFFE, x := 0xFF }) = some (0x0000, 0x01FF, 0, some 0xB5, .running) := by decide
/-- V7. -/
theorem test_ldx_imm : axyzn (after (running 2 [(0xFFFC, 0xA2), (0xFFFD, 0x80)])) = some (0x00, 0x80, 0x00, false, true) := by
  decide
/-- V9. -/
theorem test_ldy_imm : axyzn (after (running 2 [(0xFFFC, 0xA0), (0xFFFD, 0x80)])) = some (0x00, 0x00, 0x80, false, true) := by
  decide
/-- V21, before the loop test that ends the run. -/
theorem test_jsr : control (after (running 6 [(0xFFFC, 0x20), (0xFFFD, 0x00), (0xFFFE, 0x40)])) =
    some (0x4000, 0x01FD, 0, some 0x20, .running) := by decide
/-- V24, its JSR at 0xFFFD: the word pushed is 0xFFFF. -/
theorem test_jsr_pushes_across_the_wrap :
    (after { running 6 [(0xFFFD, 0x20), (0xFFFF, 0x40)] with pc := 0xFFFD }).map (fun t => (t.pc, t.mem.read 0x01FF, t.mem.read 0x01FE))
      = some (0x4000, 0xFF, 0xFF) := by decide
/-- V24, its RTS: a popped 0xFFFF goes on at 0x0000. -/
theorem test_rts : control (after { running 6 [(0x4000, 0x60), (0x01FE, 0xFF), (0x01FF, 0xFF)] with pc := 0x4000, sp := 0x01FD }) =
    some (0x0000, 0x01FF, 0, some 0x60, .running) := by decide
/-- V26. -/
theorem test_rts_on_the_empty_stack : control (after (running 6 [(0xFFFC, 0x60), (0x01FE, 0x33), (0x01FF, 0x12)])) =
    some (0xFFFD, 0x01FF, 5, some 0x60, .halted .stackFault) := by decide
/-- P6, Execute(774), its last iteration. -/
theorem test_jsr_on_the_full_stack :
    control (after { running 6 [(0x3000, 0x20), (0x3001, 0x00), (0x3002, 0x30)] with pc := 0x3000, sp := 0x00FF }) =
      some (0x3003, 0x00FF, 3, some 0x20, .halted .stackFault) := by decide
/-- V30b, its C set before. -/
theorem test_clc : (after { running 1 [(0xFFFC, 0x18)] with flags := setCarry true Flags.cleared }).map
    (fun t => (t.flags, t.pc, t.cyc)) = some (Flags.cleared, 0xFFFD, 0) := by decide
/-- V30a. -/
theorem test_sec : (after (running 1 [(0xFFFC, 0x38)])).map (fun t => (t.flags.c, t.flags.z, t.flags.n, t.pc, t.cyc)) =
    some (true, false, false, 0xFFFD, 0) := by decide
/-- V31. -/
theorem test_tax_on_reset : axyzn (after (running 1 [(0xFFFC, 0xAA)])) = some (0x00, 0x00, 0x00, true, false) := by decide
/-- V32, from its second instruction on. -/
theorem test_tax : axyzn (after { running 1 [(0xFFFC, 0xAA)] with a := 0x37 }) = some (0x37, 0x37, 0x00, false, false) := by
  decide
/-- V33, from its second instruction on. -/
theorem test_tay : axyzn (after { running 1 [(0xFFFC, 0xA8)] with a := 0x80 }) = some (0x80, 0x00, 0x80, false, true) := by
  decide
/-- V34, from its second instruction on. -/
theorem test_txa : axyzn (after { running 1 [(0xFFFC, 0x8A)] with x := 0xFF }) = some (0xFF, 0xFF, 0x00, false, true) := by
  decide
/-- V35, from its last instruction on. -/
theorem test_tya : axyzn (after { running 1 [(0x0000, 0x98)] with pc := 0x0000, a := 0x55 }) =
    some (0x00, 0x00, 0x00, true, false) := by decide
/-- V40. -/
theorem test_budget_exhausted : after (running 0 [(0xFFFC, 0xA9), (0xFFFD, 0x42)]) =
    some { load [(0xFFFC, 0xA9), (0xFFFD, 0x42)] with halt := .halted .budgetExhausted } := by decide
/-- V41. -/
theorem test_unrecognized_zero : control (after (running 5 [])) =
    some (0xFFFD, 0x01FF, 4, some 0x00, .halted .unrecognizedOpcode) := by decide
/-- V49: with the last cycle, and still UnrecognizedOpcode. -/
theorem test_unrecognized_with_the_last_cycle : control (after (running 1 [(0xFFFC, 0xFF)])) =
    some (0xFFFD, 0x01FF, 0, some 0xFF, .halted .unrecognizedOpcode) := by decide
/-- V42. -/
theorem test_insufficient_at_zero : control (after (running 1 [(0xFFFC, 0xA9), (0xFFFD, 0x42)])) =
    some (0xFFFD, 0x01FF, 0, some 0xA9, .halted .insufficientBudget) := by decide
/-- V28: the stack page is untouched. -/
theorem test_insufficient_jsr : (after (running 5 [(0xFFFC, 0x20), (0xFFFE, 0x40)])).map
    (fun t => (t.pc, t.sp, t.cyc, t.halt, t.mem.read 0x01FF)) =
      some (0xFFFD, 0x01FF, 4, .halted .insufficientBudget, 0x00) := by decide
/-- V50: no vector is read, Z is 0 although A is 0, IR holds no value. -/
theorem test_reset : (hostAfter .reset none).map (fun r => (r.1.pc, r.1.flags.z, r.1.ir, r.1.halt, r.1.mem.read 0xFFFC)) =
    some (0xFFFC, false, none, .none, 0x00) := by decide
/-- V51. -/
theorem test_write_word : (hostAfter (.writeWord 0x1234 0x0010) (some State.reset)).map
    (fun r => (r.1.mem.read 0x0010, r.1.mem.read 0x0011)) = some (0x34, 0x12) := by decide
/-- V52. -/
theorem test_write_word_at_the_top_is_refused : hostAfter (.writeWord 0x1234 0xFFFF) (some State.reset) = none := by decide

/-! ### The host's way in: the very next step runs the instruction placed -/

theorem test_with_fetch_word_jsr : after (State.reset.withFetchWord 24 0x123420) =
    nextOf (exec (.jsr 0x1234) (fetchOpcode (State.reset.withFetchWord 24 0x123420))) := by decide
theorem test_with_fetch_word_completes : control (after (State.reset.withFetchWord 24 0x123420)) =
    some (0x1234, 0x01FD, 0, some 0x20, .running) := by decide
/-- The bits above `nbits` are zero. -/
theorem test_with_fetch_word_operand_of_zeros : axyzn (after (State.reset.withFetchWord 8 0xFFA9)) =
    some (0x00, 0x00, 0x00, true, false) := by decide

/-! ### Witnesses: states and operands that meet an obligation's hypotheses, clause by clause -/

theorem witness_LengthComesFromFirstByteAlone :
    decoded [0xA9, 0x42] = some (.ldaImm 0x42, 0) ∧ (2 ≤ ([0x34, 0x12] : List Byte).length ∧ lookup 0x20 ≠ none) ∧
      lookup 0x00 = none := by decide

theorem witness_OtherOpcodeBytesHaltTheEngine :
    (running 1 []).halt = .running ∧ (running 1 []).cyc ≠ 0 ∧ (running 1 []).mem.read (running 1 []).pc ∉ config.opcodes := by
  decide

theorem witness_LdaImmediateLoadsItsOperand : ∃ s : State, s.halt = .running ∧ s.mem.read s.pc = 0xA9 ∧ s.cyc = 2 :=
  ⟨running 2 [(0xFFFC, 0xA9)], by decide⟩

theorem witness_LdaZeroPageLoadsTheCell : ∃ (s : State) (v : Byte), s.halt = .running ∧ s.mem.read s.pc = config.opcLdaZp ∧
    s.cyc = 3 ∧ v = s.mem.read (zext16 (s.mem.read (s.pc + 1))) :=
  ⟨running 3 [(0xFFFC, 0xA5), (0xFFFD, 0xFF), (0x00FF, 0x01)], 0x01, by decide⟩

theorem witness_LdaZeroPageXWrapsInTheZeroPage : ∃ (s : State) (v : Byte), s.halt = .running ∧
    s.mem.read s.pc = config.opcLdaZpX ∧ s.cyc = 4 ∧ v = s.mem.read (zext16 (s.mem.read (s.pc + 1) + s.x)) :=
  ⟨{ running 4 [(0xFFFC, 0xB5), (0xFFFD, 0xFF), (0x0000, 0x5A)] with x := 0x01 }, 0x5A, by decide⟩

theorem witness_LdxImmediateLoadsItsOperand : ∃ s : State, s.halt = .running ∧ s.mem.read s.pc = config.opcLdxImm ∧ s.cyc = 2 :=
  ⟨running 2 [(0xFFFC, 0xA2)], by decide⟩

theorem witness_LdyImmediateLoadsItsOperand : ∃ s : State, s.halt = .running ∧ s.mem.read s.pc = config.opcLdyImm ∧ s.cyc = 2 :=
  ⟨running 2 [(0xFFFC, 0xA0)], by decide⟩

/-- A state at a JSR to itself. -/
def atJsr (budget : Nat) (sp : Word) : State :=
  { running budget [(0xFFFC, 0x20), (0xFFFD, 0xFC), (0xFFFE, 0xFF)] with sp := sp }

/-- A state at an RTS. -/
def atRts (budget : Nat) (sp : Word) : State := { running budget [(0xFFFC, 0x60)] with sp := sp }

/-- Both ends of the range in which a push is allowed. -/
theorem witness_JsrPushesItsLastByteAndJumps : (([0x0101, 0x01FF] : List Word).all fun sp => decide (
    (atJsr 6 sp).halt = .running ∧ (atJsr 6 sp).mem.read (atJsr 6 sp).pc = 0x20 ∧ 6 ≤ (atJsr 6 sp).cyc ∧
      config.stackPageBase.toNat + 1 ≤ (atJsr 6 sp).sp.toNat ∧
      (atJsr 6 sp).sp.toNat ≤ config.stackPageBase.toNat + 0xFF)) = true := by decide

/-- Both ends of the range in which a pop is allowed. -/
theorem witness_RtsPopsAndContinuesOnePast : (([0x00FF, 0x01FD] : List Word).all fun sp => decide (
    (atRts 6 sp).halt = .running ∧ (atRts 6 sp).mem.read (atRts 6 sp).pc = 0x60 ∧ 6 ≤ (atRts 6 sp).cyc ∧
      config.stackPageBase.toNat ≤ (atRts 6 sp).sp.toNat + 1 ∧
      (atRts 6 sp).sp.toNat ≤ config.stackPageBase.toNat + 0xFD)) = true := by decide

/-- The stack pointers next to both ranges, on the outside. -/
theorem witness_StackFaultLeavesStackAndMemoryAlone :
    (([0x0100, 0x0200] : List Word).all fun sp => decide ((atJsr 6 sp).halt = .running ∧
      (atJsr 6 sp).mem.read (atJsr 6 sp).pc = 0x20 ∧ 6 ≤ (atJsr 6 sp).cyc ∧
      ¬ (config.stackPageBase.toNat + 1 ≤ (atJsr 6 sp).sp.toNat ∧
        (atJsr 6 sp).sp.toNat ≤ config.stackPageBase.toNat + 0xFF))) = true ∧
    (([0x00FE, 0x01FE] : List Word).all fun sp => decide ((atRts 6 sp).halt = .running ∧
      (atRts 6 sp).mem.read (atRts 6 sp).pc = 0x60 ∧ 6 ≤ (atRts 6 sp).cyc ∧
      ¬ (config.stackPageBase.toNat ≤ (atRts 6 sp).sp.toNat + 1 ∧
        (atRts 6 sp).sp.toNat ≤ config.stackPageBase.toNat + 0xFD))) = true := by decide

/-- V20's state. -/
def atCall : State := running 12 [(0xFFFC, 0x20), (0xFFFE, 0x40), (0x4000, 0x60)]

theorem witness_CallThenReturnComesBackOnePastTheCall :
    atCall.mem.wf = true ∧ atCall.halt = .running ∧ atCall.mem.read atCall.pc = 0x20 ∧
      (0x4000 : Word) = wordOf (atCall.mem.read (atCall.pc + 2)) (atCall.mem.read (atCall.pc + 1)) ∧
      atCall.mem.read 0x4000 = 0x60 ∧ 12 ≤ atCall.cyc ∧ canPush atCall.sp = true ∧ (0x4000 : Word) ≠ atCall.sp ∧
      (0x4000 : Word) ≠ atCall.sp - 1 := by decide

/-- V27's state, the JSR's target being this word. -/
def atCallIntoTheStack (target : Word) : State :=
  running 7 [(0xFFFC, 0x20), (0xFFFD, loByte target), (0xFFFE, hiByte target), (0x01FF, 0x60)]

/-- Both cells: SP and SP - 1. -/
theorem witness_PushedByteIsSeenByTheNextFetch : (([0x01FF, 0x01FE] : List Word).all fun target => decide (
    (atCallIntoTheStack target).mem.wf = true ∧ (atCallIntoTheStack target).halt = .running ∧
      (atCallIntoTheStack target).mem.read (atCallIntoTheStack target).pc = 0x20 ∧ 7 ≤ (atCallIntoTheStack target).cyc ∧
      canPush (atCallIntoTheStack target).sp = true ∧
      target = wordOf ((atCallIntoTheStack target).mem.read ((atCallIntoTheStack target).pc + 2))
        ((atCallIntoTheStack target).mem.read ((atCallIntoTheStack target).pc + 1)) ∧
      (target = (atCallIntoTheStack target).sp ∨ target = (atCallIntoTheStack target).sp - 1))) = true := by decide

theorem witness_PopAfterPushGivesTheWordBack : (([0x0101, 0x01FF] : List Word).all fun sp =>
    (atJsr 6 sp).mem.wf && canPush (atJsr 6 sp).sp) = true := by decide

theorem witness_StackHolds128WordsFromReset : State.reset.sp = config.spReset := by decide

theorem witness_ClcClearsCarryOnly : ∃ s : State, s.halt = .running ∧ s.mem.read s.pc = config.opcClc ∧ s.cyc = 1 :=
  ⟨running 1 [(0xFFFC, 0x18)], by decide⟩
theorem witness_SecSetsCarryOnly : ∃ s : State, s.halt = .running ∧ s.mem.read s.pc = config.opcSec ∧ s.cyc = 1 :=
  ⟨running 1 [(0xFFFC, 0x38)], by decide⟩
theorem witness_TaxCopiesAToX : ∃ s : State, s.halt = .running ∧ s.mem.read s.pc = 0xAA ∧ s.cyc = 1 :=
  ⟨running 1 [(0xFFFC, 0xAA)], by decide⟩
theorem witness_TayCopiesAToY : ∃ s : State, s.halt = .running ∧ s.mem.read s.pc = config.opcTay ∧ s.cyc = 1 :=
  ⟨running 1 [(0xFFFC, 0xA8)], by decide⟩
theorem witness_TxaCopiesXToA : ∃ s : State, s.halt = .running ∧ s.mem.read s.pc = config.opcTxa ∧ s.cyc = 1 :=
  ⟨running 1 [(0xFFFC, 0x8A)], by decide⟩
theorem witness_TyaCopiesYToA : ∃ s : State, s.halt = .running ∧ s.mem.read s.pc = config.opcTya ∧ s.cyc = 1 :=
  ⟨running 1 [(0xFFFC, 0x98)], by decide⟩

theorem witness_ZeroAndNegativeFollowTheProducedValue :
    (∃ t : State, (Instr.ldaImm 0x80).form.cost ≤ 1 + 1 ∧ exec (.ldaImm 0x80) { State.reset with cyc := 1 } = .next t ∧
      producedValue (.ldaImm 0x80) t = some 0x80) ∧
    (∃ t : State, exec .sec State.reset = .next t ∧ producedValue .sec t = none) ∧
    (∃ t : State, step State.reset = .next t ∧ t.halt ≠ .running) :=
  ⟨⟨_, by decide, rfl, rfl⟩, ⟨_, rfl, rfl⟩, ⟨_, rfl, by decide⟩⟩

theorem witness_StepRunsTheDecodedInstruction : atCall.halt = .running ∧ atCall.cyc ≠ 0 ∧
    decode [atCall.mem.read atCall.pc, atCall.mem.read (atCall.pc + 1), atCall.mem.read (atCall.pc + 2)]
      = .ok (.jsr 0x4000, []) := ⟨by decide, by decide, rfl⟩

theorem witness_StepRunsTheEncodedInstruction : atCall.halt = .running ∧ atCall.cyc ≠ 0 ∧
    encode (.jsr 0x4000) =
      [atCall.mem.read (atCall.pc + BitVec.ofNat 16 0), atCall.mem.read (atCall.pc + BitVec.ofNat 16 1),
        atCall.mem.read (atCall.pc + BitVec.ofNat 16 2)] := by decide

/-- Each of the six forms that have an operand. -/
theorem witness_OperandsAreWhatTheFetchPrimitivesRead :
    ([0xA9, 0xA5, 0xB5, 0xA2, 0xA0, 0x20] : List Byte).map (fun op => decoded (instrBytes (load [(0xFFFC, op), (0xFFFD, 0x80)])))
      = [some (.ldaImm 0x80, 1), some (.ldaZp 0x80, 1), some (.ldaZpX 0x80, 1), some (.ldxImm 0x80, 1), some (.ldyImm 0x80, 1),
        some (.jsr 0x0080, 0)] := by decide

theorem witness_EmptyBudgetEndsTheRun :
    ((running 0 []).halt = .running ∧ (running 0 []).cyc = 0) ∧
      ((running 1 []).halt = .running ∧ (running 1 []).cyc ≠ 0 ∧ ∃ t : State, step (running 1 []) = .next t) :=
  ⟨by decide, by decide, by decide, ⟨_, rfl⟩⟩

theorem witness_UnrecognizedOpcodeHaltsAfterItsFetch : (running 1 [(0xFFFC, 0xEA)]).halt = .running ∧
    (running 1 [(0xFFFC, 0xEA)]).cyc ≠ 0 ∧
    (running 1 [(0xFFFC, 0xEA)]).mem.read (running 1 [(0xFFFC, 0xEA)]).pc ∉ config.opcodes := by decide

/-- One cycle short, exactly enough, and a one-cycle instruction. -/
theorem witness_InsufficientBudgetStopsBeforeTheEffects :
    (decoded (instrBytes (atJsr 5 0x01FF)) = some (.jsr 0xFFFC, 0) ∧ (atJsr 5 0x01FF).cyc - 1 < Form.cost .jsr - 1) ∧
    (decoded (instrBytes (atJsr 6 0x01FF)) = some (.jsr 0xFFFC, 0) ∧ ¬ (atJsr 6 0x01FF).cyc - 1 < Form.cost .jsr - 1) ∧
    (decoded (instrBytes (running 1 [(0xFFFC, 0xAA)])) = some (.tax, 2) ∧ Form.cost .tax = 1) := by decide

/-- Each of the five cases, at a state where a later condition holds too, as R146's "Hence" has it. -/
theorem witness_FirstConditionTestedIsReported :
    [running 0 [], running 1 [(0xFFFC, 0xEA)], atJsr 5 0x0100, atJsr 6 0x0100, atJsr 6 0x01FF].map
        (fun s => (s.halt, (after s).map State.halt)) =
      [(.running, some (.halted .budgetExhausted)), (.running, some (.halted .unrecognizedOpcode)),
        (.running, some (.halted .insufficientBudget)), (.running, some (.halted .stackFault)), (.running, some .running)] := by
  decide

theorem witness_HaltingIterationKeepsRegistersAndMemory :
    [running 0 [], running 1 [(0xFFFC, 0xEA)], atJsr 5 0x01FF, atRts 6 0x01FF].map (fun s => (after s).map State.halt) =
      [some (.halted .budgetExhausted), some (.halted .unrecognizedOpcode), some (.halted .insufficientBudget),
        some (.halted .stackFault)] := by decide

theorem witness_NothingHappensBetweenRuns : State.reset.halt ≠ .running := by decide

theorem witness_CompletedInstructionSpendsItsCost :
    decode (instrBytes atCall) = .ok (.jsr 0x4000, []) ∧ atCall.halt = .running ∧ atCall.cyc ≠ 0 ∧
      ∃ t : State, step atCall = .next t ∧ t.halt = .running := ⟨rfl, by decide, by decide, _, rfl, by decide⟩

theorem witness_OpcodeFetchAloneWritesIr :
    (∃ t : State, exec .tax State.reset = .next t) ∧ (∃ t : State, step State.reset = .next t) ∧
      (∃ t : State, step (running 1 []) = .next t) := ⟨⟨_, rfl⟩, ⟨_, rfl⟩, ⟨_, rfl⟩⟩

theorem witness_SplitRunEqualsUnsplitRun :
    ∃ t : State, execute 1 (load [(0xFFFC, 0xAA)]) = .next t ∧ t.halt = .halted .budgetExhausted := ⟨_, rfl, by decide⟩

theorem witness_ExecuteOfTheCostIsASingleStep :
    decode (instrBytes (load [(0xFFFC, 0xA9), (0xFFFD, 0x42)])) = .ok (.ldaImm 0x42, [0x00]) ∧
      ∃ t : State, step (beginRun (Form.cost .ldaImm) (load [(0xFFFC, 0xA9), (0xFFFD, 0x42)])) = .next t ∧
        t.halt = .running := ⟨rfl, _, rfl, by decide⟩

/-- The least and the greatest budget that cuts a JSR short, and the least that meets a byte outside the catalog. -/
theorem witness_ExecuteEndsAtAnUnperformedInstruction :
    (decode (instrBytes atCall) = .ok (.jsr 0x4000, []) ∧ ∀ budget ∈ [1, 5], 1 ≤ budget ∧ budget < Form.cost .jsr) ∧
      State.reset.mem.read State.reset.pc ∉ config.opcodes ∧ 1 ≤ 1 := ⟨⟨rfl, by decide⟩, by decide, by decide⟩

theorem witness_RunAfterEarlyExitStartsAtTheOperand :
    (running 1 [(0xFFFC, 0xA9)]).halt = .running ∧
      ∃ t : State, step (running 1 [(0xFFFC, 0xA9)]) = .next t ∧ t.halt = .halted .insufficientBudget :=
  ⟨by decide, _, rfl, by decide⟩

/-- One instruction of each of the groups the frame names, at a budget that covers it, and one at the greatest budget that is
too short for it. -/
theorem witness_ExecWritesOnlyItsOwnTargets :
    ([Instr.ldaImm 0x42, .ldxImm 0x42, .ldyImm 0x42, .jsr 0x4000, .rts, .sec, .tax].all
      fun i => (nextOf (exec i { State.reset with cyc := 6 })).isSome) = true ∧
    (nextOf (exec (.jsr 0x4000) { State.reset with cyc := 4 })).isSome = true ∧ 4 < Form.cost .jsr - 1 := by decide

theorem witness_InertFlagsNeverChange : ∃ t : State, step atCall = .next t := ⟨_, rfl⟩

theorem witness_OnlyJsrWritesMemoryAndOnlyItsStackSlots :
    ∃ t : State, step atCall = .next t ∧ t.mem.read 0x01FF ≠ atCall.mem.read 0x01FF := ⟨_, rfl, by decide⟩

theorem witness_ListedWritesAreAllTheWrites :
    (∃ t : State, step atCall = .next t) ∧ Access.write 0x01FF 0xFF ∈ iterationAccesses atCall ∧
      Access.write 0x01FE 0xFE ∈ iterationAccesses atCall := ⟨⟨_, rfl⟩, by decide, by decide⟩

/-- A memory that differs from the state's in a cell the step does not read. -/
theorem witness_StepDependsOnListedReadsOnly :
    (∃ t : State, step atCall = .next t) ∧ atCall.mem.write 0x4000 0x00 ≠ atCall.mem ∧
      ((readsOf (iterationAccesses atCall)).all fun addr =>
        (atCall.mem.write 0x4000 0x00).read addr == atCall.mem.read addr) = true := ⟨⟨_, rfl⟩, by decide, by decide⟩

theorem witness_StepKeepsTheStateLegal : atCall.legal = true ∧ ∃ t : State, step atCall = .next t := ⟨by decide, _, rfl⟩

/-- Every host operation, on the reset state. -/
theorem witness_HostMovesKeepTheStateLegal : State.reset.legal = true ∧
    ([HostOp.reset, .write 0xFFFC 0xA9, .writeWord 0x1234 0xFFFE, .read 0xFFFF, .zeroMemory, .execute 0, .observe .a].all
      fun op => (hostAfter op (some State.reset)).isSome) = true := by decide

theorem witness_ResetSetsEveryPieceOfState :
    (∀ s : State, (none : Option State) = some s → s.halt ≠ .running) ∧
      ∀ s : State, some (load [(0xFFFC, 0xA9)]) = some s → s.halt ≠ .running :=
  ⟨fun _ h => (nomatch h), fun _ h => by injection h with h; subst h; decide⟩

theorem witness_ResetLocationIsFetchedAsCode : ∃ (s t : State) (reply : HostReply),
    hostMove (.write 0xFFFC 0x12) (some s) = .next (t, reply) ∧ HostOp.write 0xFFFC 0x12 ≠ .reset ∧
      ∀ budget, HostOp.write 0xFFFC 0x12 ≠ .execute budget :=
  ⟨State.reset, _, _, rfl, by decide, fun _ h => nomatch h⟩

/-- Every host operation on the reset state, and every observation of a state in which IR holds a value. -/
theorem witness_HostWritesMemoryOnly :
    ([HostOp.reset, .write 0xFFFC 0xA9, .writeWord 0x1234 0xFFFE, .read 0xFFFF, .zeroMemory, .execute 0].all
      fun op => (hostAfter op (some State.reset)).isSome) = true ∧
    ([Observable.a, .x, .y, .pc, .sp, .flagC, .flagZ, .flagI, .flagD, .flagB, .flagV, .flagN, .cyc, .ir, .halt].all
      fun what => (hostAfter (.observe what) (some { State.reset with ir := some 0xA9 })).isSome) = true := by decide

theorem witness_HostReadsTheByteLastWritten : State.reset.mem.wf = true ∧ State.reset.halt ≠ .running := by decide

/-- The greatest address write_word takes. -/
theorem witness_WriteWordIsLittleEndian : State.reset.mem.wf = true ∧ State.reset.halt ≠ .running ∧ (0xFFFE : Word) ≠ 0xFFFF := by
  decide

theorem witness_HostIsRefusedWhereTheSpecGivesNoMove :
    HostOp.execute 1 ≠ .reset ∧ atCall.halt = .running ∧ (State.reset.halt ≠ .running ∧ State.reset.ir = none) ∧
      ({ State.reset with ir := some 0xA9 } : State).halt ≠ .running := by decide

end Sys2Proof.Tests
end

section
/-! PROOFS. The cycle account of an instruction and of a step (R6, R20, R85): what is spent, and that nothing is gained. -/

namespace Sys2Proof.Machine

variable {s t : State} {i : Instr}

/-- An instruction that leaves the machine running took neither of the two halts, so it spent its additional cost, the
declared cost without the opcode fetch's cycle (R6). -/
theorem exec_running_cyc (h : exec i s = .next t) (hr : t.halt = .running) : t.cyc + (i.form.cost - 1) = s.cyc := by
  obtain ⟨u, hu, hcases⟩ := exec_answers i s
  obtain rfl : u = t := Host.Outcome.next.inj (hu.symm.trans h)
  rcases hcases with ⟨_, rfl⟩ | ⟨_, _, _, rfl⟩ | ⟨_, _, _, rfl⟩ | ⟨_, _, hspent, _⟩
  · cases hr
  · cases hr
  · cases hr
  · exact hspent

/-- No instruction raises CYC, also where it halts (R20). -/
theorem exec_cyc_le (h : exec i s = .next t) : t.cyc ≤ s.cyc := by
  obtain ⟨u, hu, hcases⟩ := exec_answers i s
  obtain rfl : u = t := Host.Outcome.next.inj (hu.symm.trans h)
  rcases hcases with ⟨_, rfl⟩ | ⟨_, _, _, rfl⟩ | ⟨_, _, _, rfl⟩ | ⟨_, _, hspent, _⟩
  · exact Nat.le_refl _
  · exact Nat.sub_le _ _
  · exact Nat.le_refl _
  · omega

/-- A step of a running machine with a cycle left spends at least the opcode fetch's cycle, whatever it meets there
(R79). -/
theorem step_cyc_lt (hr : s.halt = .running) (hc : s.cyc ≠ 0) (h : step s = .next t) : t.cyc < s.cyc := by
  have hle : t.cyc ≤ (fetchOpcode s).cyc := by
    rcases step_cases s with ⟨hnr, _⟩ | ⟨_, h0, _⟩ | ⟨_, _, _, hu⟩ | ⟨_, _, _, _, _, _, he⟩
    · exact absurd hr hnr
    · exact absurd h0 hc
    · obtain rfl := Host.Outcome.next.inj (hu.symm.trans h)
      exact Nat.le_refl _
    · exact exec_cyc_le (he.symm.trans h)
  rw [fetchOpcode_cyc] at hle
  omega

/-- No step raises CYC: where it does not spend the opcode fetch's cycle, it leaves CYC alone (R20). -/
theorem step_cyc_le (h : step s = .next t) : t.cyc ≤ s.cyc := by
  by_cases hr : s.halt = .running
  · by_cases hc : s.cyc = 0
    · obtain rfl := Host.Outcome.next.inj ((step_budget_exhausted hr hc).symm.trans h)
      exact Nat.le_refl _
    · exact Nat.le_of_lt (step_cyc_lt hr hc h)
  · obtain rfl := Host.Outcome.next.inj ((step_not_running hr).symm.trans h)
    exact Nat.le_refl _

/-- A step that runs an instruction and goes on spends the declared cost: the opcode fetch's cycle and the instruction's
own (R6, R85). -/
theorem step_running_cyc {rest : List Byte} (hr : s.halt = .running) (hc : s.cyc ≠ 0)
    (hd : decode (instrBytes s) = .ok (i, rest)) (h : step s = .next t) (ht : t.halt = .running) :
    t.cyc + i.form.cost = s.cyc := by
  have hspent := exec_running_cyc ((step_exec hr hc hd).symm.trans h) ht
  rw [fetchOpcode_cyc] at hspent
  have hpos := i.form.cost_pos
  omega

/-- Settles O36: a completed instruction spends its cost, and no step gains a cycle; the cost table is finite. -/
theorem completedInstructionSpendsItsCost : Obligations.CompletedInstructionSpendsItsCost :=
  ⟨by decide,
    fun _ _ _ _ hr hc hd h ht => step_running_cyc hr hc hd h ht,
    fun _ _ h => ⟨step_cyc_le h, fun hr hc => step_cyc_lt hr hc h⟩⟩

end Sys2Proof.Machine
end

section
/-! PROOFS. The flags Z and N after an instruction and after a step (R17, R76): who writes them, and with what. -/

namespace Sys2Proof.Machine

variable {s t : State} {i : Instr} {v : Byte}

/-- The byte whose high bit is set is not 0, so `SetZN` never sets both flags (R17). -/
theorem setZN_not_both (v : Byte) (f : Flags) : ¬ ((setZN v f).z = true ∧ (setZN v f).n = true) := by
  rintro ⟨hz, hn⟩
  obtain rfl : v = 0x00 := beq_iff_eq.1 hz
  rw [setZN_n] at hn
  exact absurd hn (by decide)

/-- Each of the nine loads and transfers, where its budget suffices, applies `SetZN` to the value it leaves in its
destination register, and writes no other flag (R17, R76). -/
theorem exec_flags_of_produced (hc : i.form.cost - 1 ≤ s.cyc) (h : exec i s = .next t)
    (hv : producedValue i t = some v) : t.flags = setZN v s.flags := by
  cases i with
  | ldaImm _ => cases (execLdaImm_enough hc).symm.trans h; cases hv; rfl
  | ldaZp _ => cases (execLdaZp_enough hc).symm.trans h; cases hv; rfl
  | ldaZpX _ => cases (execLdaZpX_enough hc).symm.trans h; cases hv; rfl
  | ldxImm _ => cases (execLdxImm_enough hc).symm.trans h; cases hv; rfl
  | ldyImm _ => cases (execLdyImm_enough hc).symm.trans h; cases hv; rfl
  | tax => cases execTax_cases h; cases hv; rfl
  | tay => cases execTay_cases h; cases hv; rfl
  | txa => cases execTxa_cases h; cases hv; rfl
  | tya => cases execTya_cases h; cases hv; rfl
  | jsr _ | rts | clc | sec => cases hv

/-- The four instructions that produce no register value leave Z and N, whether they complete or halt: a subroutine
instruction writes no flag, a flag instruction only C (R17). -/
theorem exec_keeps_zn_of_no_produced (h : exec i s = .next t) (hv : producedValue i t = none) :
    t.flags.z = s.flags.z ∧ t.flags.n = s.flags.n := by
  cases i with
  | jsr _ => rcases execJsr_cases h with ⟨_, rfl⟩ | ⟨_, _, rfl⟩ | ⟨_, _, rfl⟩ <;> exact ⟨rfl, rfl⟩
  | rts => rcases execRts_cases h with ⟨_, rfl⟩ | ⟨_, _, rfl⟩ | ⟨_, _, rfl⟩ <;> exact ⟨rfl, rfl⟩
  | clc => cases execClc_cases h; exact ⟨rfl, rfl⟩
  | sec => cases execSec_cases h; exact ⟨rfl, rfl⟩
  | ldaImm _ | ldaZp _ | ldaZpX _ | ldxImm _ | ldyImm _ | tax | tay | txa | tya => cases hv

/-- An instruction that changes HALT took one of the two halts, and neither writes a flag (R145). -/
theorem exec_flags_of_halting (h : exec i s = .next t) (hh : t.halt ≠ s.halt) : t.flags = s.flags := by
  obtain ⟨u, hu, hcases⟩ := exec_answers i s
  obtain rfl : u = t := Host.Outcome.next.inj (hu.symm.trans h)
  rcases hcases with ⟨_, rfl⟩ | ⟨_, _, _, rfl⟩ | ⟨_, _, _, rfl⟩ | ⟨_, hsame, _⟩
  · rfl
  · rfl
  · rfl
  · exact absurd hsame hh

/-- A step that halts, or that finds the machine stopped, writes no flag (R145). -/
theorem step_flags_of_not_running (h : step s = .next t) (hh : t.halt ≠ .running) : t.flags = s.flags := by
  rcases step_cases s with ⟨_, hu⟩ | ⟨_, _, hu⟩ | ⟨_, _, _, hu⟩ | ⟨i, _, hr, _, _, _, he⟩
  · cases hu.symm.trans h; rfl
  · cases hu.symm.trans h; rfl
  · cases hu.symm.trans h; rfl
  · have hne : t.halt ≠ (fetchOpcode s).halt := ne_of_ne_of_eq hh hr.symm
    exact (exec_flags_of_halting (he.symm.trans h) hne).trans (fetchOpcode_flags s)

/-- Settles O25: the nine write Z and N by `SetZN` of the value they produce; the other four and every halt
leave them. -/
theorem zeroAndNegativeFollowTheProducedValue : Obligations.ZeroAndNegativeFollowTheProducedValue := by
  refine ⟨fun i s t v hc h hv => ?_, fun _ _ _ h hv => exec_keeps_zn_of_no_produced h hv,
    fun s t h hh => ?_, by decide⟩
  · rw [exec_flags_of_produced (Nat.sub_le_of_le_add hc) h hv]
    exact ⟨rfl, BitVec.msb_eq_getLsbD_last v, setZN_not_both v s.flags⟩
  · rw [step_flags_of_not_running h hh]
    exact ⟨rfl, rfl⟩

end Sys2Proof.Machine
end

section
/-! PROOFS. How the operands are assembled (R52): the decoder at a form's own opcode byte, and the effective addresses as
numbers. -/

namespace Sys2Proof.Machine

/-- At a form's own opcode byte the decoder assembles that form's operand from the bytes after it (R52, R54). -/
theorem decode_opcode_cons (f : Form) (rest : List Byte) : decode (f.opcode :: rest) = decodeOperand f rest :=
  decode_of_lookup (lookup_opcode f) rest

theorem zeroPageEa_toNat (zp : Byte) : (zeroPageEa zp).toNat = zp.toNat := zext16_toNat zp

/-- The indexed sum wraps within the zero page, "never spilling into the next page" (R52). -/
theorem zeroPageXEa_toNat (zp x : Byte) : (zeroPageXEa zp x).toNat = (zp.toNat + x.toNat) % 256 :=
  (zext16_toNat (zp + x)).trans (BitVec.toNat_add zp x)

/-- Settles O4: at each opcode byte the decoder takes the operand bytes as they stand, and the addresses made of them
are the numbers R52 gives. -/
theorem operandsAreAssembledUnsigned : Obligations.OperandsAreAssembledUnsigned := by
  refine ⟨fun b rest => ⟨?_, ?_, ?_⟩, fun b rest => ⟨?_, zeroPageEa_toNat b⟩,
    fun b x rest => ⟨?_, zeroPageXEa_toNat b x⟩, fun lo hi rest => ⟨wordOf hi lo, ?_, wordOf_toNat hi lo⟩⟩
  · exact decode_opcode_cons .ldaImm (b :: rest)
  · exact decode_opcode_cons .ldxImm (b :: rest)
  · exact decode_opcode_cons .ldyImm (b :: rest)
  · exact decode_opcode_cons .ldaZp (b :: rest)
  · exact decode_opcode_cons .ldaZpX (b :: rest)
  · exact decode_opcode_cons .jsr (lo :: hi :: rest)

end Sys2Proof.Machine
end

section
/-! PROOFS. The halts of the dispatch loop that come from the budget and from the catalog (R78, R80, R81): when each is
taken, and the state it leaves. -/

namespace Sys2Proof.Machine

variable {s t : State} {i : Instr}

/-- The bytes that lookup does not recognise are those outside the configuration's list (R54, R55). -/
theorem lookup_eq_none_iff_not_mem_opcodes {op : Byte} : lookup op = none ↔ op ∉ config.opcodes := by
  have hopcodes : config.opcodes = Form.all.map Form.opcode := rfl
  rw [lookup_eq_none, hopcodes, List.mem_map, not_exists]
  exact forall_congr' fun f => ⟨fun hne hf => hne hf.2, fun hn hf => hn ⟨f.mem_all, hf⟩⟩

/-- HALT after an instruction: InsufficientBudget where the budget is short; otherwise StackFault, which only the two
6-cycle instructions take, or HALT as it was (R81, R144). -/
theorem exec_halt_cases (h : exec i s = .next t) :
    (s.cyc < i.form.cost - 1 ∧ t.halt = .halted .insufficientBudget) ∨
      (i.form.cost - 1 ≤ s.cyc ∧ i.form.cost = 6 ∧ t.halt = .halted .stackFault) ∨
      (i.form.cost - 1 ≤ s.cyc ∧ t.halt = s.halt) := by
  obtain ⟨u, hu, hcases⟩ := exec_answers i s
  obtain rfl : u = t := Host.Outcome.next.inj (hu.symm.trans h)
  rcases hcases with ⟨hlt, rfl⟩ | ⟨hge, hjsr, _, rfl⟩ | ⟨hge, hrts, _, rfl⟩ | ⟨hge, hsame, _⟩
  · exact .inl ⟨hlt, rfl⟩
  · exact .inr (.inl ⟨hge, congrArg Form.cost hjsr, rfl⟩)
  · exact .inr (.inl ⟨hge, congrArg Form.cost hrts, rfl⟩)
  · exact .inr (.inr ⟨hge, hsame⟩)

/-- An instruction reports InsufficientBudget exactly where the budget is short of its additional cost (R81, R142). -/
theorem exec_insufficientBudget_iff (hr : s.halt = .running) (h : exec i s = .next t) :
    t.halt = .halted .insufficientBudget ↔ s.cyc < i.form.cost - 1 := by
  rcases exec_halt_cases h with ⟨hlt, ht⟩ | ⟨hge, _, ht⟩ | ⟨hge, ht⟩
  · exact iff_of_true ht hlt
  · exact iff_of_false (by simp [ht]) (Nat.not_lt.2 hge)
  · exact iff_of_false (by simp [ht, hr]) (Nat.not_lt.2 hge)

/-- An instruction whose opcode fetch is its whole cost neither runs short nor touches the stack (R81). -/
theorem exec_halt_of_cost_one (h1 : i.form.cost = 1) (h : exec i s = .next t) : t.halt = s.halt := by
  rcases exec_halt_cases h with ⟨hlt, _⟩ | ⟨_, h6, _⟩ | ⟨_, ht⟩
  · omega
  · omega
  · exact ht

/-- The loop condition alone reports BudgetExhausted: a step with a cycle left takes another halt, or goes on (R78). -/
theorem step_halt_ne_budgetExhausted (hr : s.halt = .running) (hc : s.cyc ≠ 0) (h : step s = .next t) :
    t.halt ≠ .halted .budgetExhausted := by
  rcases step_cases s with ⟨hnr, _⟩ | ⟨_, h0, _⟩ | ⟨_, _, _, hu⟩ | ⟨i, _, _, _, _, _, he⟩
  · exact absurd hr hnr
  · exact absurd h0 hc
  · obtain rfl := Host.Outcome.next.inj (hu.symm.trans h)
    simp
  · rcases exec_halt_cases (he.symm.trans h) with ⟨_, ht⟩ | ⟨_, _, ht⟩ | ⟨_, ht⟩ <;> simp [ht, hr]

/-- `Execute(0)` is one iteration, which halts at the loop condition (R77, R78). -/
theorem execute_zero (s : State) : execute 0 s = .next (haltWith .budgetExhausted (beginRun 0 s)) :=
  runLoop_of_step (step_budget_exhausted (beginRun_halt 0 s) (beginRun_cyc 0 s))

/-- Settles O31: the budget check stands between the opcode fetch and the effects, and it alone reports
InsufficientBudget. -/
theorem insufficientBudgetStopsBeforeTheEffects : Obligations.InsufficientBudgetStopsBeforeTheEffects := by
  intro s i rest hr hc hd
  have hstep : step s = exec i (fetchOpcode s) := step_exec hr hc hd
  refine ⟨fun hshort => hstep.trans (exec_short hshort), fun t h => ?_, fun h1 t h => ?_⟩
  · rw [exec_insufficientBudget_iff (s := fetchOpcode s) hr (hstep.symm.trans h), fetchOpcode_cyc]
    have hpos := i.form.cost_pos
    omega
  · exact (exec_halt_of_cost_one h1 (hstep.symm.trans h)).trans hr

/-- Settles O29: the loop condition, and nothing else, ends a run with BudgetExhausted. -/
theorem emptyBudgetEndsTheRun : Obligations.EmptyBudgetEndsTheRun :=
  ⟨fun _ hr hc => step_budget_exhausted hr hc,
    fun _ _ hr hc h => step_halt_ne_budgetExhausted hr hc h,
    execute_zero⟩

/-- Settles O30: a byte outside the catalog halts the engine with its fetch standing. -/
theorem unrecognizedOpcodeHaltsAfterItsFetch : Obligations.UnrecognizedOpcodeHaltsAfterItsFetch :=
  fun _ hr hc hop => step_unrecognized hr hc (lookup_eq_none_iff_not_mem_opcodes.2 hop)

end Sys2Proof.Machine
end

section
/-! PROOFS. The load instructions (41_load.md): the state each leaves where its budget suffices, after the opcode fetch
(R100 to R104) and, through a whole step, before it. -/

namespace Sys2Proof.Machine

variable {s : State} {f : Form} {i : Instr} {rest : List Byte} {op : Byte}

/-- A step at a form's opcode byte runs the instruction which that form's operand assembly makes of the next bytes
(R52, R79). -/
theorem step_of_decodeOperand (hr : s.halt = .running) (hc : s.cyc ≠ 0) (hb : s.mem.read s.pc = f.opcode)
    (hd : decodeOperand f [s.mem.read (s.pc + 1), s.mem.read (s.pc + 2)] = .ok (i, rest)) :
    step s = exec i (fetchOpcode s) := by
  obtain ⟨j, _, hj, hstep⟩ := step_of_opcode f hr hc hb
  cases hj.symm.trans hd
  exact hstep

/-- The two byte fetches of a format-OP8 instruction together: PC and CYC move by 2, and IR holds the opcode byte
(R70, R79). -/
theorem advance_fetchOpcode (hb : s.mem.read s.pc = op) :
    advance 1 (fetchOpcode s) = { s with pc := s.pc + 2, cyc := s.cyc - 2, ir := some op } := by
  subst hb
  have hpc : s.pc + 1 + 1 = s.pc + 2 := BitVec.add_assoc s.pc 1 1
  rw [← hpc]
  rfl

/-- A step of a format-OP8 instruction whose rule is its operand fetch and then `effect`: where the budget suffices, the
rule's effect on the state with both bytes fetched (R79 to R82). -/
theorem step_of_op8 {n : Nat} (effect : State → State)
    (hexec : ∀ t, n ≤ t.cyc → exec i t = .next (effect (advance 1 t)))
    (hd : decodeOperand f [s.mem.read (s.pc + 1), s.mem.read (s.pc + 2)] = .ok (i, rest))
    (hr : s.halt = .running) (hb : s.mem.read s.pc = f.opcode) (hc : n + 1 ≤ s.cyc) :
    step s = .next (effect { s with pc := s.pc + 2, cyc := s.cyc - 2, ir := some f.opcode }) := by
  have hn : n ≤ (fetchOpcode s).cyc := Nat.le_sub_one_of_lt hc
  rw [step_of_decodeOperand hr (Nat.ne_zero_of_lt hc) hb hd, hexec _ hn, advance_fetchOpcode hb]

/-- Settles O7: LDA immediate is `loadA` of its operand after the operand fetch. -/
theorem ldaImmediateLoadsItsOperand : Obligations.LdaImmediateLoadsItsOperand :=
  ⟨fun _ _ hc => execLdaImm_enough hc,
    fun _ hr hb hc => step_of_op8 (f := .ldaImm) (loadA _) (fun _ => execLdaImm_enough) rfl hr hb hc⟩

/-- Settles O8: LDA zero page is `loadA` of the cell its operand addresses, with one more cycle for that read. -/
theorem ldaZeroPageLoadsTheCell : Obligations.LdaZeroPageLoadsTheCell := by
  refine ⟨fun _ _ hc => execLdaZp_enough hc, ?_⟩
  rintro s _ hr hb hc rfl
  exact step_of_op8 (f := .ldaZp) (fun t => loadA (t.mem.read (zeroPageEa _)) (spend 1 t))
    (fun _ => execLdaZp_enough) rfl hr hb hc

/-- Settles O9: LDA zero page,X reads at the 8-bit sum of operand and X, and spends a cycle each on the sum and on the
read. -/
theorem ldaZeroPageXWrapsInTheZeroPage : Obligations.LdaZeroPageXWrapsInTheZeroPage := by
  refine ⟨fun _ _ hc => execLdaZpX_enough hc, ?_⟩
  rintro s _ hr hb hc rfl
  exact step_of_op8 (f := .ldaZpX) (fun t => loadA (t.mem.read (zeroPageXEa _ t.x)) (spend 1 (spend 1 t)))
    (fun _ => execLdaZpX_enough) rfl hr hb hc

/-- Settles O10: LDX immediate is `loadX` of its operand after the operand fetch. -/
theorem ldxImmediateLoadsItsOperand : Obligations.LdxImmediateLoadsItsOperand :=
  ⟨fun _ _ hc => execLdxImm_enough hc,
    fun _ hr hb hc => step_of_op8 (f := .ldxImm) (loadX _) (fun _ => execLdxImm_enough) rfl hr hb hc⟩

/-- Settles O11: LDY immediate is `loadY` of its operand after the operand fetch. -/
theorem ldyImmediateLoadsItsOperand : Obligations.LdyImmediateLoadsItsOperand :=
  ⟨fun _ _ hc => execLdyImm_enough hc,
    fun _ hr hb hc => step_of_op8 (f := .ldyImm) (loadY _) (fun _ => execLdyImm_enough) rfl hr hb hc⟩

end Sys2Proof.Machine
end

section
/-! PROOFS. The flag instructions (43_flag.md): C is written and nothing else, after the opcode fetch (R120, R121) and,
through a whole step, before it. -/

namespace Sys2Proof.Machine

variable {s : State} {i : Instr} {rest : List Byte} {op : Byte}

/-- The state after the opcode fetch of a known byte: PC and CYC move by 1, and IR holds the byte (R79). -/
theorem fetchOpcode_of_read (hb : s.mem.read s.pc = op) :
    fetchOpcode s = { s with pc := s.pc + 1, cyc := s.cyc - 1, ir := some op } := by
  subst hb
  rfl

/-- A step of an instruction whose opcode fetch is all it fetches and all it costs: the rule's effect on the state with
the opcode byte fetched (R79 to R82). -/
theorem step_of_implied (effect : State → State) (hexec : ∀ t, exec i t = .next (effect t))
    (hd : decodeOperand i.form [s.mem.read (s.pc + 1), s.mem.read (s.pc + 2)] = .ok (i, rest))
    (hr : s.halt = .running) (hb : s.mem.read s.pc = i.form.opcode) (hc : 1 ≤ s.cyc) :
    step s = .next (effect { s with pc := s.pc + 1, cyc := s.cyc - 1, ir := some i.form.opcode }) := by
  rw [step_of_decodeOperand hr (Nat.ne_zero_of_lt hc) hb hd, hexec, fetchOpcode_of_read hb]

/-- Settles O19: CLC is `setCarry false` on the flags, and a step adds only the opcode fetch. -/
theorem clcClearsCarryOnly : Obligations.ClcClearsCarryOnly :=
  ⟨execClc_eq,
    fun _ hr hb hc => step_of_implied (i := .clc) (fun t => { t with flags := setCarry false t.flags })
      execClc_eq rfl hr hb hc⟩

/-- Settles O20: SEC is `setCarry true` on the flags, and a step adds only the opcode fetch. -/
theorem secSetsCarryOnly : Obligations.SecSetsCarryOnly :=
  ⟨execSec_eq,
    fun _ hr hb hc => step_of_implied (i := .sec) (fun t => { t with flags := setCarry true t.flags })
      execSec_eq rfl hr hb hc⟩

end Sys2Proof.Machine
end

section
/-! PROOFS. The register transfers (44_transfer.md): each is the load of its source register's value, after the opcode
fetch (R130 to R133) and, through a whole step, before it. The load writes Z and N whatever its destination held. -/

namespace Sys2Proof.Machine

/-- Settles O21: TAX is `loadX` of A, and a step adds only the opcode fetch. -/
theorem taxCopiesAToX : Obligations.TaxCopiesAToX :=
  ⟨execTax_eq,
    fun _ hr hb hc => step_of_implied (i := .tax) (fun t => loadX t.a t) execTax_eq rfl hr hb hc⟩

/-- Settles O22: TAY is `loadY` of A, and a step adds only the opcode fetch. -/
theorem tayCopiesAToY : Obligations.TayCopiesAToY :=
  ⟨execTay_eq,
    fun _ hr hb hc => step_of_implied (i := .tay) (fun t => loadY t.a t) execTay_eq rfl hr hb hc⟩

/-- Settles O23: TXA is `loadA` of X, and a step adds only the opcode fetch. -/
theorem txaCopiesXToA : Obligations.TxaCopiesXToA :=
  ⟨execTxa_eq,
    fun _ hr hb hc => step_of_implied (i := .txa) (fun t => loadA t.x t) execTxa_eq rfl hr hb hc⟩

/-- Settles O24: TYA is `loadA` of Y, and a step adds only the opcode fetch. -/
theorem tyaCopiesYToA : Obligations.TyaCopiesYToA :=
  ⟨execTya_eq,
    fun _ hr hb hc => step_of_implied (i := .tya) (fun t => loadA t.y t) execTya_eq rfl hr hb hc⟩

end Sys2Proof.Machine
end

section
/-! PROOFS. The decoder and the encoder against one another (R50 to R56): what each operand reader accepts, the round trip
in both directions, and the length that the first byte shows. -/

namespace Sys2Proof

variable {f : Form} {i j : Instr} {op : Byte} {tail rest : List Byte}

/-! ### What each operand reader accepts -/

theorem operandNone_ok (h : operandNone j tail = .ok (i, rest)) : i = j ∧ tail = rest := by
  cases h
  exact ⟨rfl, rfl⟩

theorem operand8_ok {mk : Byte → Instr} (h : operand8 f mk tail = .ok (i, rest)) :
    ∃ b, i = mk b ∧ tail = b :: rest := by
  match tail, h with
  | b :: _, rfl => exact ⟨b, rfl, rfl⟩

theorem operand16_ok {mk : Word → Instr} (h : operand16 f mk tail = .ok (i, rest)) :
    ∃ w, i = mk w ∧ tail = loByte w :: hiByte w :: rest := by
  match tail, h with
  | lo :: hi :: _, rfl => exact ⟨wordOf hi lo, rfl, by rw [loByte_wordOf, hiByte_wordOf]⟩

/-- An operand is accepted only as the encoder would have written it. -/
theorem decodeOperand_ok (h : decodeOperand f tail = .ok (i, rest)) :
    i.form = f ∧ tail = (encode i).tail ++ rest := by
  cases f with
  | ldaImm | ldaZp | ldaZpX | ldxImm | ldyImm =>
    obtain ⟨b, rfl, rfl⟩ := operand8_ok h
    exact ⟨rfl, rfl⟩
  | jsr =>
    obtain ⟨w, rfl, rfl⟩ := operand16_ok h
    exact ⟨rfl, rfl⟩
  | rts | clc | sec | tax | tay | txa | tya =>
    obtain ⟨rfl, rfl⟩ := operandNone_ok h
    exact ⟨rfl, rfl⟩

theorem decodeOperand_encode_tail (i : Instr) (rest : List Byte) :
    decodeOperand i.form ((encode i).tail ++ rest) = .ok (i, rest) := by
  cases i with
  | jsr w => exact congrArg (fun w => Except.ok (Instr.jsr w, rest)) (wordOf_hiByte_loByte w)
  | _ => rfl

/-- Two bytes are enough for every form's operand (R50). -/
theorem decodeOperand_of_two (f : Form) (b1 b2 : Byte) (rest : List Byte) :
    ∃ i rest', decodeOperand f (b1 :: b2 :: rest) = .ok (i, rest') := by
  cases f <;> exact ⟨_, _, rfl⟩

/-! ### The round trip -/

theorem encode_eq_cons (i : Instr) : encode i = i.form.opcode :: (encode i).tail := by
  cases i <;> rfl

theorem encode_length (i : Instr) : (encode i).length = i.form.length := by
  cases i <;> rfl

theorem decode_encode_append (i : Instr) (rest : List Byte) : decode (encode i ++ rest) = .ok (i, rest) := by
  rw [encode_eq_cons, List.cons_append, decode_of_lookup (lookup_opcode i.form), decodeOperand_encode_tail]

theorem decode_ok {bytes : List Byte} (h : decode bytes = .ok (i, rest)) : bytes = encode i ++ rest := by
  cases bytes with
  | nil => cases h
  | cons op tail =>
    cases hl : lookup op with
    | none => cases (decode_of_unrecognized hl tail).symm.trans h
    | some f =>
      obtain ⟨rfl, rfl⟩ := decodeOperand_ok ((decode_of_lookup hl tail).symm.trans h)
      rw [lookup_eq_some.1 hl, encode_eq_cons, List.cons_append, List.tail_cons]

/-- Settles O2: what decodes has the encoder's shape, and the encoder's shape decodes. -/
theorem decodeAnswersExactlyTheEncodedInstruction : Obligations.DecodeAnswersExactlyTheEncodedInstruction :=
  fun _ i rest => ⟨decode_ok, fun h => h ▸ decode_encode_append i rest⟩

/-- Settles O1: six of the words are encodings, and 0xEA is in no catalog row. -/
theorem catalogWordsDecode : Obligations.CatalogWordsDecode :=
  ⟨decode_encode_append (.ldaImm 0x42) [], decode_encode_append (.ldaZpX 0xFF) [],
    decode_encode_append (.jsr 0x1234) [], decode_encode_append .rts [], decode_encode_append .clc [],
    decode_encode_append .tax [], decode_of_unrecognized (by decide) []⟩

/-! ### The table words -/

theorem ofNat_insOfBytes_cons (b : Byte) (bytes : List Byte) : BitVec.ofNat 8 (insOfBytes (b :: bytes)) = b := by
  have hb := b.isLt
  apply BitVec.eq_of_toNat_eq
  rw [BitVec.toNat_ofNat, insOfBytes]
  omega

theorem insOfBytes_cons_div (b : Byte) (bytes : List Byte) :
    insOfBytes (b :: bytes) / 2 ^ 8 = insOfBytes bytes := by
  have hb := b.isLt
  rw [insOfBytes]
  omega

theorem insOfBytes_lt (bytes : List Byte) : insOfBytes bytes < 2 ^ (8 * bytes.length) := by
  induction bytes with
  | nil => exact Nat.one_pos
  | cons b bytes ih =>
    have hb := b.isLt
    rw [insOfBytes, List.length_cons, Nat.mul_succ, Nat.pow_add]
    omega

/-- The table word of at most three bytes gives them back, with zeros in the bytes above them (R51). -/
theorem tableBytes_insOfBytes (bytes : List Byte) (h : bytes.length ≤ 3) :
    tableBytes (8 * bytes.length) (insOfBytes bytes) = bytes ++ List.replicate (3 - bytes.length) 0 := by
  have hshift : insOfBytes bytes / 2 ^ 16 = insOfBytes bytes / 2 ^ 8 / 2 ^ 8 :=
    (Nat.div_div_eq_div_mul (insOfBytes bytes) (2 ^ 8) (2 ^ 8)).symm
  rw [tableBytes, Nat.mod_eq_of_lt (insOfBytes_lt bytes), hshift]
  match bytes, h with
  | [], _ => rfl
  | [b0], _ => simp only [ofNat_insOfBytes_cons, insOfBytes_cons_div]; rfl
  | [b0, b1], _ => simp only [ofNat_insOfBytes_cons, insOfBytes_cons_div]; rfl
  | [b0, b1, b2], _ => simp only [ofNat_insOfBytes_cons, insOfBytes_cons_div]; rfl

/-- Settles O3: the table word holds the encoding, followed at most by zeros, which decide nothing. -/
theorem tableWordOfEncodingDecodes : Obligations.TableWordOfEncodingDecodes := by
  intro i
  have hbytes := tableBytes_insOfBytes (encode i) (encode_length i ▸ i.form.length_le)
  rw [encode_length] at hbytes
  rw [decodeTableWord, hbytes, decode_encode_append]

/-! ### Lengths -/

theorem instrLength_opcode (f : Form) : instrLength f.opcode = f.length := by
  rw [instrLength, lookup_opcode]

theorem instrLength_of_unrecognized (h : lookup op = none) : instrLength op = 1 := by
  rw [instrLength, h]

/-- Settles O5: bytes that decode are an encoding and a rest, so the first byte is the form's opcode and shows the
encoding's length. -/
theorem lengthComesFromFirstByteAlone : Obligations.LengthComesFromFirstByteAlone := by
  refine ⟨⟨rfl, rfl, rfl⟩, fun op tail i rest h => ?_, fun op tail hlen hl => ?_,
    fun op => instrLength_of_unrecognized⟩
  · have hbytes := decode_ok h
    have hop : op = i.form.opcode := by
      rw [encode_eq_cons] at hbytes
      exact (List.cons.inj hbytes).1
    rw [hbytes, List.length_append, encode_length, hop]
    exact ⟨by rw [instrLength_opcode], lookup_opcode i.form⟩
  · obtain ⟨f, hf⟩ := Option.ne_none_iff_exists'.1 hl
    match tail, hlen with
    | b1 :: b2 :: rest, _ =>
      rw [decode_of_lookup hf]
      exact decodeOperand_of_two f b1 b2 rest

end Sys2Proof
end

section
/-! PROOFS. Everything exec answers, as one equation: which stack accesses fault, and the state an instruction that
completes leaves, with what it keeps of the state before (R81, R82, R144). -/

namespace Sys2Proof.Machine

/-- Whether a form's stack access leaves the stack page (R75); the other eleven make none. -/
def stackFaults (f : Form) (sp : Word) : Bool :=
  match f with
  | .jsr => !canPush sp
  | .rts => !canPop sp
  | _ => false

/-- The state in which an instruction that neither runs short nor faults ends, from the state after its opcode fetch
(R100 to R133). -/
def completed (i : Instr) (s : State) : State :=
  match i with
  | .ldaImm imm => loadA imm (advance 1 s)
  | .ldaZp zp => loadA (s.mem.read (zeroPageEa zp)) (spend 1 (advance 1 s))
  | .ldaZpX zp => loadA (s.mem.read (zeroPageXEa zp s.x)) (spend 1 (spend 1 (advance 1 s)))
  | .ldxImm imm => loadX imm (advance 1 s)
  | .ldyImm imm => loadY imm (advance 1 s)
  | .jsr target => { s with
      pc := target
      sp := s.sp - 2
      mem := (s.mem.write s.sp (hiByte (s.pc + 1))).write (s.sp - 1) (loByte (s.pc + 1))
      cyc := s.cyc - 5 }
  | .rts => { s with
      pc := wordOf (s.mem.read (s.sp + 2)) (s.mem.read (s.sp + 1)) + 1
      sp := s.sp + 2
      cyc := s.cyc - 5 }
  | .clc => { s with flags := setCarry false s.flags }
  | .sec => { s with flags := setCarry true s.flags }
  | .tax => loadX s.a s
  | .tay => loadY s.a s
  | .txa => loadA s.x s
  | .tya => loadA s.y s

variable {s t : State} {i : Instr}

/-! ### The three answers of exec -/

theorem stackFaults_iff {f : Form} {sp : Word} : stackFaults f sp = true ↔
    f = .jsr ∧ canPush sp = false ∨ f = .rts ∧ canPop sp = false := by
  cases f <;> simp [stackFaults]

theorem stackFaults_jsr_eq_false {sp : Word} : stackFaults .jsr sp = false ↔ canPush sp = true :=
  iff_of_eq (Bool.not_eq_false' _)

theorem stackFaults_rts_eq_false {sp : Word} : stackFaults .rts sp = false ↔ canPop sp = true :=
  iff_of_eq (Bool.not_eq_false' _)

theorem stackFaults_jsr_eq_true {sp : Word} : stackFaults .jsr sp = true ↔ canPush sp = false :=
  iff_of_eq (Bool.not_eq_true' _)

theorem stackFaults_rts_eq_true {sp : Word} : stackFaults .rts sp = true ↔ canPop sp = false :=
  iff_of_eq (Bool.not_eq_true' _)

/-- Only the two subroutine instructions make a stack access, and they cost more than their opcode fetch (R85). -/
theorem form_mem_of_stackFaults {f : Form} {sp : Word} (h : stackFaults f sp = true) :
    f ∈ [Form.jsr, Form.rts] ∧ f ∉ [Form.clc, .sec, .tax, .tay, .txa, .tya] := by
  rcases stackFaults_iff.1 h with ⟨rfl, _⟩ | ⟨rfl, _⟩ <;> decide

theorem exec_completed (hc : i.form.cost - 1 ≤ s.cyc) (hf : stackFaults i.form s.sp = false) :
    exec i s = .next (completed i s) := by
  cases i with
  | ldaImm _ => exact execLdaImm_enough hc
  | ldaZp _ => exact execLdaZp_enough hc
  | ldaZpX _ => exact execLdaZpX_enough hc
  | ldxImm _ => exact execLdxImm_enough hc
  | ldyImm _ => exact execLdyImm_enough hc
  | jsr target =>
    have hpc : s.pc + 2 - 1 = s.pc + 1 := add_sub_assoc s.pc 2 1
    rw [exec_jsr, execJsr_push hc (stackFaults_jsr_eq_false.1 hf), hpc]
    rfl
  | rts => exact execRts_pop hc (stackFaults_rts_eq_false.1 hf)
  | clc => exact execClc_eq s
  | sec => exact execSec_eq s
  | tax => exact execTax_eq s
  | tay => exact execTay_eq s
  | txa => exact execTxa_eq s
  | tya => exact execTya_eq s

theorem advance_zero (s : State) : advance 0 s = s := by
  rw [advance, BitVec.add_zero, Nat.sub_zero]

/-- A fault leaves the operand fetched and nothing else done (R144): JSR's two operand bytes, nothing for RTS. -/
theorem exec_fault (hc : i.form.cost - 1 ≤ s.cyc) (hf : stackFaults i.form s.sp = true) :
    exec i s = .next (haltWith .stackFault (advance (i.form.length - 1) s)) := by
  cases i with
  | jsr target => exact execJsr_fault hc (stackFaults_jsr_eq_true.1 hf)
  | rts =>
    have hlen : Instr.rts.form.length - 1 = 0 := rfl
    rw [exec_rts, execRts_fault hc (stackFaults_rts_eq_true.1 hf), hlen, advance_zero]
  | _ => cases hf

/-- Everything exec answers: in each state, exactly one of three next states. -/
theorem exec_eq (i : Instr) (s : State) : exec i s = .next (
    if s.cyc < i.form.cost - 1 then haltWith .insufficientBudget s
    else if stackFaults i.form s.sp = true then haltWith .stackFault (advance (i.form.length - 1) s)
    else completed i s) := by
  split
  next hlt => exact exec_short hlt
  next hge =>
    split
    next hf => exact exec_fault (Nat.not_lt.1 hge) hf
    next hf => exact exec_completed (Nat.not_lt.1 hge) (Bool.eq_false_iff.2 hf)

theorem exec_cases (h : exec i s = .next t) :
    (s.cyc < i.form.cost - 1 ∧ t = haltWith .insufficientBudget s) ∨
      (i.form.cost - 1 ≤ s.cyc ∧ stackFaults i.form s.sp = true ∧
        t = haltWith .stackFault (advance (i.form.length - 1) s)) ∨
      (i.form.cost - 1 ≤ s.cyc ∧ stackFaults i.form s.sp = false ∧ t = completed i s) := by
  rw [exec_eq] at h
  cases h
  split
  next hlt => exact .inl ⟨hlt, rfl⟩
  next hge =>
    split
    next hf => exact .inr (.inl ⟨Nat.not_lt.1 hge, hf, rfl⟩)
    next hf => exact .inr (.inr ⟨Nat.not_lt.1 hge, Bool.eq_false_iff.2 hf, rfl⟩)

/-! ### What an instruction that completes keeps -/

@[simp] theorem completed_halt (i : Instr) (s : State) : (completed i s).halt = s.halt := by
  cases i <;> rfl

@[simp] theorem completed_ir (i : Instr) (s : State) : (completed i s).ir = s.ir := by
  cases i <;> rfl

/-- Of the thirteen only JSR writes memory. -/
theorem completed_mem_of_ne_jsr (hj : i.form ≠ .jsr) : (completed i s).mem = s.mem := by
  cases i with
  | jsr _ => exact absurd rfl hj
  | _ => rfl

/-- An instruction leaves the flags, or writes C alone, or sets Z and N from a value (R15 to R17). -/
theorem completed_flags_cases (i : Instr) (s : State) :
    (completed i s).flags = s.flags ∨ (∃ bit, (completed i s).flags = setCarry bit s.flags) ∨
      ∃ v, (completed i s).flags = setZN v s.flags := by
  cases i with
  | jsr _ | rts => exact .inl rfl
  | clc | sec => exact .inr (.inl ⟨_, rfl⟩)
  | ldaImm _ | ldaZp _ | ldaZpX _ | ldxImm _ | ldyImm _ | tax | tay | txa | tya => exact .inr (.inr ⟨_, rfl⟩)

end Sys2Proof.Machine
end

section
/-! PROOFS. The invariant of the machine (R14, R16, R17, R141 to R144), part by part, and that every step keeps it. -/

namespace Sys2Proof.Machine

variable {s t : State} {i : Instr}

theorem legal_iff : s.legal = true ↔
    s.mem.wf = true ∧ spLegal s.sp = true ∧ flagsLegal s.flags = true ∧ haltConsistent s = true := by
  simp only [State.legal, Bool.and_eq_true, and_assoc]

/-- A running machine is under no condition on CYC, IR and SP (R22). -/
theorem haltConsistent_of_running (hr : s.halt = .running) : haltConsistent s = true := by
  rw [haltConsistent, hr]

theorem spLegal_iff {sp : Word} : spLegal sp = true ↔
    config.stackPageBase.toNat ≤ sp.toNat + 1 ∧ sp.toNat ≤ config.stackPageBase.toNat + 0xFF ∧
      sp.toNat % 2 = config.spReset.toNat % 2 := by
  simp only [spLegal, Bool.and_eq_true, decide_eq_true_eq]
  omega

/-- SP where a push does not fault, as numbers: the stack page lies above address 0x00FF, so SP - 2 does not wrap. -/
theorem sub_two_toNat {sp : Word} (hp : canPush sp = true) : (sp - 2).toNat = sp.toNat - 2 := by
  obtain ⟨hlo, _⟩ := canPush_iff.1 hp
  obtain ⟨_, hbase, _⟩ := stackBase_legal
  exact BitVec.toNat_sub_of_le (BitVec.le_def.2 (by simp; omega))

/-- SP where a pop does not fault, as numbers: the stack page ends below 0x10000, so SP + 2 does not wrap. -/
theorem add_two_toNat {sp : Word} (hp : canPop sp = true) : (sp + 2).toNat = sp.toNat + 2 := by
  obtain ⟨_, hhi⟩ := canPop_iff.1 hp
  obtain ⟨_, _, hbase⟩ := stackBase_legal
  exact BitVec.toNat_add_of_lt (by simp; omega)

theorem spLegal_push {sp : Word} (h : spLegal sp = true) (hp : canPush sp = true) : spLegal (sp - 2) = true := by
  obtain ⟨_, _, hparity⟩ := spLegal_iff.1 h
  obtain ⟨hlo, hhi⟩ := canPush_iff.1 hp
  obtain ⟨_, hbase, _⟩ := stackBase_legal
  rw [spLegal_iff, sub_two_toNat hp]
  omega

theorem spLegal_pop {sp : Word} (h : spLegal sp = true) (hp : canPop sp = true) : spLegal (sp + 2) = true := by
  obtain ⟨_, _, hparity⟩ := spLegal_iff.1 h
  obtain ⟨hlo, hhi⟩ := canPop_iff.1 hp
  rw [spLegal_iff, add_two_toNat hp]
  omega

theorem flagsLegal_iff {f : Flags} : flagsLegal f = true ↔
    f.i = false ∧ f.d = false ∧ f.b = false ∧ f.v = false ∧ ¬ (f.z = true ∧ f.n = true) := by
  simp only [flagsLegal, Bool.and_eq_true, Bool.not_eq_true', Bool.eq_false_iff, ne_eq, and_assoc]

theorem flagsLegal_setCarry {f : Flags} (bit : Bool) (h : flagsLegal f = true) : flagsLegal (setCarry bit f) = true := h

theorem flagsLegal_setZN {f : Flags} (v : Byte) (h : flagsLegal f = true) : flagsLegal (setZN v f) = true := by
  obtain ⟨hi, hd, hb, hv, _⟩ := flagsLegal_iff.1 h
  exact flagsLegal_iff.2 ⟨hi, hd, hb, hv, setZN_not_both v f⟩

/-! ### Each part through an instruction that completes -/

theorem completed_mem_wf (i : Instr) (h : s.mem.wf = true) : (completed i s).mem.wf = true := by
  by_cases hj : i.form = .jsr
  · cases i with
    | jsr _ => exact Memory.write_wf (Memory.write_wf h _ _) _ _
    | _ => cases hj
  · rw [completed_mem_of_ne_jsr hj]
    exact h

theorem completed_spLegal (hf : stackFaults i.form s.sp = false) (h : spLegal s.sp = true) :
    spLegal (completed i s).sp = true := by
  cases i with
  | jsr _ => exact spLegal_push h (stackFaults_jsr_eq_false.1 hf)
  | rts => exact spLegal_pop h (stackFaults_rts_eq_false.1 hf)
  | _ => exact h

theorem completed_flagsLegal (i : Instr) (h : flagsLegal s.flags = true) :
    flagsLegal (completed i s).flags = true := by
  rcases completed_flags_cases i s with he | ⟨bit, he⟩ | ⟨v, he⟩
  · rw [he]; exact h
  · rw [he]; exact flagsLegal_setCarry bit h
  · rw [he]; exact flagsLegal_setZN v h

/-! ### HALT after each halt -/

theorem haltConsistent_budgetExhausted (hc : s.cyc = 0) : haltConsistent (haltWith .budgetExhausted s) = true :=
  decide_eq_true hc

theorem haltConsistent_unrecognizedOpcode (hl : lookup (s.mem.read s.pc) = none) :
    haltConsistent (haltWith .unrecognizedOpcode (fetchOpcode s)) = true :=
  decide_eq_true hl

theorem haltConsistent_insufficientBudget {f : Form} (hir : s.ir = some f.opcode) (hc : s.cyc < f.cost - 1) :
    haltConsistent (haltWith .insufficientBudget s) = true := by
  have hlookup : s.ir.bind lookup = some f := by rw [hir, Option.bind_some, lookup_opcode]
  simp only [haltConsistent, haltWith_halt, haltWith_ir, haltWith_cyc, hlookup]
  exact decide_eq_true (by omega)

theorem haltConsistent_stackFault {f : Form} (hir : s.ir = some f.opcode) (hf : stackFaults f s.sp = true) :
    haltConsistent (haltWith .stackFault s) = true := by
  simp only [haltConsistent, haltWith_halt, haltWith_ir, haltWith_sp, hir]
  rcases stackFaults_iff.1 hf with ⟨rfl, hp⟩ | ⟨rfl, hp⟩ <;> simp [hp, Form.opcode, Form.row]

/-! ### The step -/

theorem exec_keeps_legal (hr : s.halt = .running) (hir : s.ir = some i.form.opcode) (hs : s.legal = true)
    (h : exec i s = .next t) : t.legal = true := by
  obtain ⟨hm, hsp, hfl, _⟩ := legal_iff.1 hs
  rcases exec_cases h with ⟨hc, rfl⟩ | ⟨_, hf, rfl⟩ | ⟨_, hf, rfl⟩
  · exact legal_iff.2 ⟨hm, hsp, hfl, haltConsistent_insufficientBudget hir hc⟩
  · exact legal_iff.2 ⟨hm, hsp, hfl, haltConsistent_stackFault hir hf⟩
  · exact legal_iff.2 ⟨completed_mem_wf i hm, completed_spLegal hf hsp, completed_flagsLegal i hfl,
      haltConsistent_of_running ((completed_halt i s).trans hr)⟩

/-- Settles O49: part by part, for a stopped machine, for each halt of the loop, and for an instruction. -/
theorem stepKeepsTheStateLegal : Obligations.StepKeepsTheStateLegal := by
  intro s t hs h
  obtain ⟨hm, hsp, hfl, _⟩ := legal_iff.1 hs
  rcases step_cases s with ⟨_, hu⟩ | ⟨_, hc, hu⟩ | ⟨_, _, hl, hu⟩ | ⟨i, _, hr, _, _, hb, hu⟩
  · cases hu.symm.trans h
    exact hs
  · cases hu.symm.trans h
    exact legal_iff.2 ⟨hm, hsp, hfl, haltConsistent_budgetExhausted hc⟩
  · cases hu.symm.trans h
    exact legal_iff.2 ⟨hm, hsp, hfl, haltConsistent_unrecognizedOpcode hl⟩
  · exact exec_keeps_legal (s := fetchOpcode s) hr (congrArg some hb)
      (legal_iff.2 ⟨hm, hsp, hfl, haltConsistent_of_running hr⟩) (hu.symm.trans h)

end Sys2Proof.Machine
end

section
/-! PROOFS. What a step runs (R79 to R82): the instruction whose bytes stand at PC, with the operands that the fetch
primitives read (R70, R71). -/

namespace Sys2Proof.Machine

variable {s t : State} {i : Instr} {rest : List Byte}

/-! ### The bytes at PC -/

theorem instrBytes_getElem? (s : State) {k : Nat} (hk : k < 3) :
    (instrBytes s)[k]? = some (s.mem.read (s.pc + BitVec.ofNat 16 k)) := by
  match k, hk with
  | 0, _ => exact congrArg (fun a => some (s.mem.read a)) (BitVec.add_zero s.pc).symm
  | 1, _ => rfl
  | 2, _ => rfl

/-- The bytes of an encoding stand from PC on exactly where the bytes fetched there decode to the instruction. -/
theorem decode_instrBytes_iff : (∃ rest, decode (instrBytes s) = .ok (i, rest)) ↔
    ∀ (k : Nat) (b : Byte), (encode i)[k]? = some b → s.mem.read (s.pc + BitVec.ofNat 16 k) = b := by
  have hlen : (encode i).length ≤ 3 := (encode_length i).trans_le i.form.length_le
  constructor
  · rintro ⟨rest, hd⟩ k b hb
    have hk : k < (encode i).length := (List.getElem?_eq_some_iff.1 hb).1
    have hget := instrBytes_getElem? s (hk.trans_le hlen)
    rw [decode_ok hd, List.getElem?_append_left hk, hb] at hget
    exact (Option.some.inj hget).symm
  · intro hbytes
    have htake : (instrBytes s).take (encode i).length = encode i := by
      refine List.ext_getElem? fun k => ?_
      rw [List.getElem?_take]
      split
      next hk =>
        have hget := List.getElem?_eq_getElem hk
        rw [instrBytes_getElem? s (hk.trans_le hlen), hbytes k _ hget, hget]
      next hk => exact (List.getElem?_eq_none (Nat.not_lt.1 hk)).symm
    have hsplit := List.take_append_drop (encode i).length (instrBytes s)
    rw [htake] at hsplit
    exact ⟨_, hsplit ▸ decode_encode_append i _⟩

theorem decode_instrBytes_opcode (hd : decode (instrBytes s) = .ok (i, rest)) :
    s.mem.read s.pc = i.form.opcode := decode_three_ok hd

/-- Settles O26: by `step_exec`; every instruction is well formed. -/
theorem stepRunsTheDecodedInstruction : Obligations.StepRunsTheDecodedInstruction :=
  fun _ i _ hr hc hd => ⟨by cases i <;> rfl, step_exec hr hc hd⟩

/-- Settles O27: bytes that are an encoding decode to it, whatever follows. -/
theorem stepRunsTheEncodedInstruction : Obligations.StepRunsTheEncodedInstruction := by
  intro s i hr hc hbytes
  obtain ⟨rest, hd⟩ := decode_instrBytes_iff.2 hbytes
  rw [step_exec hr hc hd, fetchOpcode_of_read (decode_instrBytes_opcode hd)]

/-- The bytes after the opcode are the operand, as the encoder writes it, and a rest. -/
theorem instrBytes_tail (hd : decode (instrBytes s) = .ok (i, rest)) :
    [s.mem.read (s.pc + 1), s.mem.read (s.pc + 2)] = (encode i).tail ++ rest := by
  have hbytes := decode_ok hd
  rw [encode_eq_cons] at hbytes
  exact (List.cons.inj hbytes).2

theorem operand8_eq_fetchByte {b : Byte} (henc : (encode i).tail = [b])
    (hd : decode (instrBytes s) = .ok (i, rest)) : b = (fetchByte (fetchOpcode s)).1 := by
  have htail := instrBytes_tail hd
  rw [henc] at htail
  exact (List.cons.inj htail).1.symm

theorem add_one_add_one (w : Word) : w + 1 + 1 = w + 2 := BitVec.add_assoc w 1 1

theorem operand16_eq_fetchWord {w : Word} (hd : decode (instrBytes s) = .ok (.jsr w, rest)) :
    w = (fetchWord (fetchOpcode s)).1 := by
  obtain ⟨hlo, hhi, _⟩ : s.mem.read (s.pc + 1) = loByte w ∧ s.mem.read (s.pc + 2) = hiByte w ∧ [] = rest := by
    simpa [encode] using instrBytes_tail hd
  rw [fetchWord_fst, fetchOpcode_pc, fetchOpcode_mem, add_one_add_one, hlo, hhi, wordOf_hiByte_loByte]

theorem advance_one_advance_one (s : State) : advance 1 (advance 1 s) = advance 2 s := by
  simp only [advance, Nat.sub_sub, BitVec.add_assoc]
  rfl

/-- Settles O28: the operand bytes are those after the opcode, where the fetch primitives read. -/
theorem operandsAreWhatTheFetchPrimitivesRead : Obligations.OperandsAreWhatTheFetchPrimitivesRead := by
  refine ⟨fun s b rest h => ?_, fun _ _ _ hd => operand16_eq_fetchWord hd, fun s => ?_⟩
  · rcases h with hd | hd | hd | hd | hd <;> exact operand8_eq_fetchByte rfl hd
  · rw [fetchByte_snd, fetchByte_snd, advance_one_advance_one]
    rfl

end Sys2Proof.Machine
end

section
/-! PROOFS. What a step answers and reports (R78 to R82, R140 to R146): always a next state, with IR from the opcode fetch
alone, and a halt that leaves the registers, the flags and memory. -/

namespace Sys2Proof.Machine

variable {s t : State} {i : Instr}

/-- A step answers a next state in every state: a halt is one too (log 1). -/
theorem step_answers (s : State) : ∃ t, step s = .next t := by
  rcases step_cases s with ⟨_, hu⟩ | ⟨_, _, hu⟩ | ⟨_, _, _, hu⟩ | ⟨i, _, _, _, _, _, hu⟩
  · exact ⟨_, hu⟩
  · exact ⟨_, hu⟩
  · exact ⟨_, hu⟩
  · exact ⟨_, hu.trans (exec_eq i _)⟩

/-- Settles O35: by the equation of exec, and by the cases of a step. -/
theorem everyStepAnswersANextState : Obligations.EveryStepAnswersANextState :=
  ⟨fun i s => ⟨_, exec_eq i s⟩, step_answers⟩

/-- Settles O34: by `step_not_running`. -/
theorem nothingHappensBetweenRuns : Obligations.NothingHappensBetweenRuns :=
  fun _ => step_not_running

/-! ### IR -/

theorem exec_ir (h : exec i s = .next t) : t.ir = s.ir := by
  rcases exec_cases h with ⟨_, rfl⟩ | ⟨_, _, rfl⟩ | ⟨_, _, rfl⟩
  · rfl
  · rfl
  · exact completed_ir i s

theorem step_ir_of_fetch (hr : s.halt = .running) (hc : s.cyc ≠ 0) (h : step s = .next t) :
    t.ir = some (s.mem.read s.pc) := by
  rcases step_cases s with ⟨hnr, _⟩ | ⟨_, h0, _⟩ | ⟨_, _, _, hu⟩ | ⟨i, _, _, _, _, _, hu⟩
  · exact absurd hr hnr
  · exact absurd h0 hc
  · cases hu.symm.trans h
    rfl
  · exact exec_ir (hu.symm.trans h)

theorem step_fetches (hr : s.halt = .running) (hc : s.cyc ≠ 0) :
    ∃ t, step s = .next t ∧ t.ir = some (s.mem.read s.pc) := by
  obtain ⟨t, h⟩ := step_answers s
  exact ⟨t, h, step_ir_of_fetch hr hc h⟩

/-- Without an opcode fetch a step writes HALT at most. -/
theorem step_eq_of_no_fetch (hn : ¬ (s.halt = .running ∧ s.cyc ≠ 0)) (h : step s = .next t) :
    t = { s with halt := t.halt } := by
  rcases step_cases s with ⟨_, hu⟩ | ⟨_, _, hu⟩ | ⟨hr, hc, _⟩ | ⟨_, _, hr, hc, _⟩
  · cases hu.symm.trans h
    rfl
  · cases hu.symm.trans h
    rfl
  · exact absurd ⟨hr, hc⟩ hn
  · exact absurd ⟨hr, hc⟩ hn

/-- Settles O37: exec keeps IR, so a step leaves in it what its opcode fetch wrote. -/
theorem opcodeFetchAloneWritesIr : Obligations.OpcodeFetchAloneWritesIr := by
  refine ⟨fun _ _ _ h => exec_ir h, fun s t h => ?_⟩
  split
  next hf => exact step_ir_of_fetch hf.1 hf.2 h
  next hn => rw [step_eq_of_no_fetch hn h]

/-! ### The halts -/

/-- Of the 256 bytes all but 13 are unrecognised (R55), by looking each one up. -/
theorem unrecognized_count :
    ((List.range 256).filter fun n => (lookup (BitVec.ofNat 8 n)).isNone).length = 243 := by
  decide +kernel

/-- Settles O6: a byte outside the catalog is one outside the list of the 13, and its fetch halts the engine. -/
theorem otherOpcodeBytesHaltTheEngine : Obligations.OtherOpcodeBytesHaltTheEngine :=
  ⟨fun _ => lookup_eq_none_iff_not_mem_opcodes, unrecognized_count, by decide, by decide,
    fun s hr hc hop => ⟨_, unrecognizedOpcodeHaltsAfterItsFetch s hr hc hop, rfl⟩⟩

/-- Settles O32: in the order of the loop's tests, then of exec's. -/
theorem firstConditionTestedIsReported : Obligations.FirstConditionTestedIsReported := by
  intro s hr
  obtain ⟨t, h⟩ := step_answers s
  refine ⟨t, h, ?_⟩
  rcases step_cases s with ⟨hnr, _⟩ | ⟨_, hc, hu⟩ | ⟨_, hc, hl, hu⟩ | ⟨i, _, _, hc, _, hb, hu⟩
  · exact absurd hr hnr
  · cases hu.symm.trans h
    rw [if_pos hc]
    rfl
  · cases hu.symm.trans h
    rw [if_neg hc, hl]
    rfl
  · rw [if_neg hc, hb, lookup_opcode]
    have hpos := i.form.cost_pos
    rcases exec_cases (hu.symm.trans h) with ⟨hlt, rfl⟩ | ⟨hge, hf, rfl⟩ | ⟨hge, hf, rfl⟩
    · have hshort : s.cyc < i.form.cost := by rw [fetchOpcode_cyc] at hlt; omega
      exact (if_pos hshort).symm
    · have henough : ¬ s.cyc < i.form.cost := by rw [fetchOpcode_cyc] at hge; omega
      exact ((if_neg henough).trans (if_pos (stackFaults_iff.1 hf))).symm
    · have henough : ¬ s.cyc < i.form.cost := by rw [fetchOpcode_cyc] at hge; omega
      have hsafe := mt stackFaults_iff.2 (Bool.eq_false_iff.1 hf)
      exact (completed_halt i _).trans (hr.trans ((if_neg henough).trans (if_neg hsafe)).symm)

/-- An instruction that halts has written PC, CYC and HALT at most: JSR's operand fetch, and the reason (R145). -/
theorem exec_eq_of_halting (h : exec i s = .next t) (hh : t.halt ≠ s.halt) :
    t = { s with pc := t.pc, cyc := t.cyc, halt := t.halt } := by
  rcases exec_cases h with ⟨_, rfl⟩ | ⟨_, _, rfl⟩ | ⟨_, _, rfl⟩
  · rfl
  · rfl
  · exact absurd (completed_halt i s) hh

/-- A step that leaves the machine stopped has written PC, CYC, IR and HALT at most (R145). -/
theorem step_eq_of_not_running (h : step s = .next t) (hh : t.halt ≠ .running) :
    t = { s with pc := t.pc, cyc := t.cyc, ir := t.ir, halt := t.halt } := by
  rcases step_cases s with ⟨_, hu⟩ | ⟨_, _, hu⟩ | ⟨_, _, _, hu⟩ | ⟨i, _, hr, _, _, _, hu⟩
  · cases hu.symm.trans h
    rfl
  · cases hu.symm.trans h
    rfl
  · cases hu.symm.trans h
    rfl
  · have hne : t.halt ≠ (fetchOpcode s).halt := ne_of_ne_of_eq hh hr.symm
    rw [exec_eq_of_halting (hu.symm.trans h) hne]
    rfl

/-- Settles O33: the fields that a halt may write are none of those named. -/
theorem haltingIterationKeepsRegistersAndMemory : Obligations.HaltingIterationKeepsRegistersAndMemory := by
  intro s t r _ h ht
  have hne : t.halt ≠ .running := by simp [ht]
  rw [step_eq_of_not_running h hne]
  exact ⟨rfl, rfl, rfl, rfl, rfl, rfl⟩

end Sys2Proof.Machine
end

section
/-! PROOFS. Subroutine call and return (42_subroutine.md, R73 to R75): where the push and the pop stay in the stack page and
where they fault, what the one gives back of the other, and how deep the stack is. -/

namespace Sys2Proof.Machine

variable {s t : State} {m : Memory} {sp addr : Word} {hi lo : Byte}

/-! ### The two cells of a push -/

theorem read_pushed_high (h : m.wf = true) : ((m.write sp hi).write (sp - 1) lo).read sp = hi :=
  (Memory.read_write_other (sub_one_ne sp).symm lo).trans (Memory.read_write_same h sp hi)

theorem read_pushed_low (h : m.wf = true) : ((m.write sp hi).write (sp - 1) lo).read (sp - 1) = lo :=
  Memory.read_write_same (Memory.write_wf h sp hi) (sp - 1) lo

theorem read_pushed_other (h1 : addr ≠ sp) (h2 : addr ≠ sp - 1) :
    ((m.write sp hi).write (sp - 1) lo).read addr = m.read addr :=
  (Memory.read_write_other h2 lo).trans (Memory.read_write_other h1 hi)

/-- The two cells a pop reads after a push are the two cells of the push. -/
theorem wordOf_read_pushed (v : Word) (h : m.wf = true) :
    wordOf (((m.write sp (hiByte v)).write (sp - 1) (loByte v)).read (sp - 2 + 2))
      (((m.write sp (hiByte v)).write (sp - 1) (loByte v)).read (sp - 2 + 1)) = v := by
  have hhigh : sp - 2 + 2 = sp := by bv_omega
  have hlow : sp - 2 + 1 = sp - 1 := by bv_omega
  rw [hhigh, hlow, read_pushed_high h, read_pushed_low h, wordOf_hiByte_loByte]

/-- What was pushed can be popped: SP - 2 lies in the pop's range (R75). -/
theorem canPop_sub_two (hp : canPush sp = true) : canPop (sp - 2) = true := by
  obtain ⟨hlo, hhi⟩ := canPush_iff.1 hp
  rw [canPop_iff, sub_two_toNat hp]
  omega

/-- Settles O17: the pop reads the two cells of the push and puts SP back. -/
theorem popAfterPushGivesTheWordBack : Obligations.PopAfterPushGivesTheWordBack := by
  intro v s hm hp
  refine ⟨_, pushWord_ok hp, ?_⟩
  rw [popWord_ok]
  · rw [wordOf_read_pushed v hm, sub_add_cancel]
  · exact canPop_sub_two hp

/-! ### Depth -/

/-- With room for n words SP stands 2 * n - 1 above the stack page's base; what is pushed fits exactly if it is no more. -/
theorem pushAll_isSome_iff (words : List Word) {n : Nat} {s : State} (hn : n ≤ 128)
    (hsp : s.sp.toNat + 1 = config.stackPageBase.toNat + 2 * n) :
    (pushAll words s).isSome = true ↔ words.length ≤ n := by
  obtain ⟨_, hbase, _⟩ := stackBase_legal
  induction words generalizing n s with
  | nil => exact iff_of_true rfl (Nat.zero_le n)
  | cons v words ih =>
    cases n with
    | zero =>
      have hp : canPush s.sp = false := Bool.eq_false_iff.2 fun hp => by
        have hrange := canPush_iff.1 hp
        omega
      rw [pushAll, pushWord_none hp]
      exact iff_of_false Bool.false_ne_true (Nat.not_succ_le_zero _)
    | succ n =>
      have hp : canPush s.sp = true := canPush_iff.2 (by omega)
      have hsp' : (s.sp - 2).toNat + 1 = config.stackPageBase.toNat + 2 * n := by
        rw [sub_two_toNat hp]
        omega
      rw [pushAll, pushWord_ok hp, Option.bind_some, ih (by omega) hsp', List.length_cons, Nat.succ_le_succ_iff]

/-- Settles O18: SP_RESET is the top of the stack page, 256 bytes that hold 128 words. -/
theorem stackHolds128WordsFromReset : Obligations.StackHolds128WordsFromReset :=
  fun words _ hsp => pushAll_isSome_iff words (Nat.le_refl 128) (by rw [hsp]; rfl)

/-! ### JSR and RTS through a whole step -/

theorem step_jsr (hr : s.halt = .running) (hc : s.cyc ≠ 0) (hb : s.mem.read s.pc = 0x20) :
    step s = exec (.jsr (wordOf (s.mem.read (s.pc + 2)) (s.mem.read (s.pc + 1))))
      { s with pc := s.pc + 1, cyc := s.cyc - 1, ir := some 0x20 } := by
  rw [step_of_decodeOperand (f := .jsr) hr hc hb rfl, fetchOpcode_of_read hb]

theorem step_rts (hr : s.halt = .running) (hc : s.cyc ≠ 0) (hb : s.mem.read s.pc = 0x60) :
    step s = exec .rts { s with pc := s.pc + 1, cyc := s.cyc - 1, ir := some 0x60 } := by
  rw [step_of_decodeOperand (f := .rts) hr hc hb rfl, fetchOpcode_of_read hb]

/-- Settles O12: the push does not fault there, and PC +16 1 after the opcode fetch is the address of the last byte. -/
theorem jsrPushesItsLastByteAndJumps : Obligations.JsrPushesItsLastByteAndJumps := by
  refine ⟨fun target s hc hlo hhi => exec_completed hc (stackFaults_jsr_eq_false.2 (canPush_iff.2 ⟨hlo, hhi⟩)),
    fun s hr hb hc hlo hhi => ?_⟩
  have hsafe : stackFaults .jsr s.sp = false := stackFaults_jsr_eq_false.2 (canPush_iff.2 ⟨hlo, hhi⟩)
  rw [step_jsr hr (Nat.ne_zero_of_lt hc) hb, exec_completed]
  · rw [← add_one_add_one]; rfl
  · exact Nat.le_sub_one_of_lt hc
  · exact hsafe

/-- Settles O13: the pop does not fault there. -/
theorem rtsPopsAndContinuesOnePast : Obligations.RtsPopsAndContinuesOnePast := by
  refine ⟨fun s hc hlo hhi => exec_completed hc (stackFaults_rts_eq_false.2 (canPop_iff.2 ⟨hlo, hhi⟩)),
    fun s hr hb hc hlo hhi => ?_⟩
  have hsafe : stackFaults .rts s.sp = false := stackFaults_rts_eq_false.2 (canPop_iff.2 ⟨hlo, hhi⟩)
  rw [step_rts hr (Nat.ne_zero_of_lt hc) hb, exec_completed]
  · rfl
  · exact Nat.le_sub_one_of_lt hc
  · exact hsafe

/-- Settles O14: the fault leaves the fetched operand, two bytes for JSR and none for RTS. -/
theorem stackFaultLeavesStackAndMemoryAlone : Obligations.StackFaultLeavesStackAndMemoryAlone := by
  refine ⟨fun s hr hb hc hout => ?_, fun s hr hb hc hout => ?_⟩
  · have hfault : stackFaults .jsr s.sp = true :=
      stackFaults_jsr_eq_true.2 (Bool.eq_false_iff.2 (mt canPush_iff.1 hout))
    have hpc : s.pc + 1 + 2 = s.pc + 3 := BitVec.add_assoc s.pc 1 2
    rw [step_jsr hr (Nat.ne_zero_of_lt hc) hb, exec_fault, ← hpc]
    · rfl
    · exact Nat.le_sub_one_of_lt hc
    · exact hfault
  · have hfault : stackFaults .rts s.sp = true :=
      stackFaults_rts_eq_true.2 (Bool.eq_false_iff.2 (mt canPop_iff.1 hout))
    have hlen : Instr.rts.form.length - 1 = 0 := rfl
    rw [step_rts hr (Nat.ne_zero_of_lt hc) hb, exec_fault, hlen, advance_zero]
    · rfl
    · exact Nat.le_sub_one_of_lt hc
    · exact hfault

/-! ### Calling -/

/-- Settles O15: the RTS byte is not one of the two pushed cells, and the pop gives the pushed word back. -/
theorem callThenReturnComesBackOnePastTheCall : Obligations.CallThenReturnComesBackOnePastTheCall := by
  rintro s _ hm hr hb rfl hrts hc hp hne hne'
  obtain ⟨hlo, hhi⟩ := canPush_iff.1 hp
  obtain ⟨hlo', hhi'⟩ := canPop_iff.1 (canPop_sub_two hp)
  have hpc : s.pc + 2 + 1 = s.pc + 3 := BitVec.add_assoc s.pc 2 1
  refine ⟨_, _, jsrPushesItsLastByteAndJumps.2 s hr hb (by omega) hlo hhi,
    rtsPopsAndContinuesOnePast.2 _ ?_ ?_ ?_ ?_ ?_, ?_⟩
  · exact hr
  · exact (read_pushed_other hne hne').trans hrts
  · exact Nat.le_sub_of_add_le hc
  · exact hlo'
  · exact hhi'
  · exact ⟨(congrArg (· + 1) (wordOf_read_pushed (s.pc + 2) hm)).trans hpc, sub_add_cancel s.sp 2, rfl, rfl, rfl, rfl,
      Nat.sub_sub s.cyc 6 6, hr, read_pushed_high hm, read_pushed_low hm, fun _ => read_pushed_other⟩

/-- Settles O16: the call leaves PC at a pushed cell, and the next opcode fetch reads it. -/
theorem pushedByteIsSeenByTheNextFetch : Obligations.PushedByteIsSeenByTheNextFetch := by
  intro s target hm hr hb hc hp htarget hcell
  obtain ⟨hlo, hhi⟩ := canPush_iff.1 hp
  obtain ⟨called, hcall⟩ := step_answers s
  have hcalled := Host.Outcome.next.inj
    (hcall.symm.trans (jsrPushesItsLastByteAndJumps.2 s hr hb (by omega) hlo hhi))
  have hrunning : called.halt = .running := by rw [hcalled]; exact hr
  have hcycles : called.cyc ≠ 0 := by rw [hcalled]; exact Nat.sub_ne_zero_of_lt hc
  obtain ⟨fetched, hfetched, hir⟩ := step_fetches hrunning hcycles
  refine ⟨called, fetched, hcall, hfetched, ?_⟩
  rw [hir, hcalled, ← htarget]
  rcases hcell with rfl | rfl
  · rw [if_pos rfl, read_pushed_high hm]
  · rw [if_neg (sub_one_ne s.sp), read_pushed_low hm]

end Sys2Proof.Machine
end

section
/-! PROOFS. The frame of every instruction (R11, R14 to R16, R21): which of the state an instruction that completes leaves,
form by form, and what exec and a step leave of it. -/

namespace Sys2Proof.Machine

variable {s t : State} {i : Instr}

theorem completed_a (h : i.form ∉ [.ldaImm, .ldaZp, .ldaZpX, .txa, .tya]) : (completed i s).a = s.a := by
  cases i with
  | ldaImm _ | ldaZp _ | ldaZpX _ | txa | tya => simp [Instr.form] at h
  | _ => rfl

theorem completed_x (h : i.form ∉ [.ldxImm, .tax]) : (completed i s).x = s.x := by
  cases i with
  | ldxImm _ | tax => simp [Instr.form] at h
  | _ => rfl

theorem completed_y (h : i.form ∉ [.ldyImm, .tay]) : (completed i s).y = s.y := by
  cases i with
  | ldyImm _ | tay => simp [Instr.form] at h
  | _ => rfl

theorem completed_sp (h : i.form ∉ [.jsr, .rts]) : (completed i s).sp = s.sp := by
  cases i with
  | jsr _ | rts => simp [Instr.form] at h
  | _ => rfl

theorem completed_carry (h : i.form ∉ [.clc, .sec]) : (completed i s).flags.c = s.flags.c := by
  cases i with
  | clc | sec => simp [Instr.form] at h
  | _ => rfl

theorem completed_zn (h : i.form ∈ [.jsr, .rts, .clc, .sec]) :
    (completed i s).flags.z = s.flags.z ∧ (completed i s).flags.n = s.flags.n := by
  cases i with
  | jsr _ | rts | clc | sec => exact ⟨rfl, rfl⟩
  | _ => simp [Instr.form] at h

theorem completed_inert (i : Instr) (s : State) :
    (completed i s).flags.i = s.flags.i ∧ (completed i s).flags.d = s.flags.d ∧
      (completed i s).flags.b = s.flags.b ∧ (completed i s).flags.v = s.flags.v := by
  rcases completed_flags_cases i s with he | ⟨bit, he⟩ | ⟨v, he⟩ <;> rw [he] <;> exact ⟨rfl, rfl, rfl, rfl⟩

/-- A JSR that completes writes the two cells of its push and no other (R73). -/
theorem completed_read_of_jsr (hj : i.form = .jsr) {addr : Word} (h1 : addr ≠ s.sp) (h2 : addr ≠ s.sp - 1) :
    (completed i s).mem.read addr = s.mem.read addr := by
  cases i with
  | jsr _ => exact read_pushed_other h1 h2
  | _ => cases hj

/-- The opcode fetch of a flag instruction or a transfer is all it fetches and all it costs (R85). -/
theorem completed_pc_cyc (h : i.form ∈ [.clc, .sec, .tax, .tay, .txa, .tya]) :
    (completed i s).pc = s.pc ∧ (completed i s).cyc = s.cyc := by
  cases i with
  | clc | sec | tax | tay | txa | tya => exact ⟨rfl, rfl⟩
  | _ => simp [Instr.form] at h

/-- Settles O43: the two halts write PC, CYC and HALT at most; for an instruction that completes, field by field. -/
theorem execWritesOnlyItsOwnTargets : Obligations.ExecWritesOnlyItsOwnTargets := by
  intro i s t h
  rcases exec_cases h with ⟨_, rfl⟩ | ⟨hge, hf, rfl⟩ | ⟨hge, _, rfl⟩
  · exact ⟨fun _ => rfl, fun _ => rfl, fun _ => rfl, fun _ => rfl, fun _ => rfl, fun _ => ⟨rfl, rfl⟩,
      ⟨rfl, rfl, rfl, rfl⟩, fun _ _ => rfl, fun _ _ _ _ => rfl, rfl, fun _ => ⟨rfl, rfl⟩, fun _ => ⟨rfl, rfl⟩,
      .inr (.inl rfl)⟩
  · obtain ⟨hstack, hdisjoint⟩ := form_mem_of_stackFaults hf
    exact ⟨fun _ => rfl, fun _ => rfl, fun _ => rfl, fun _ => rfl, fun _ => rfl, fun _ => ⟨rfl, rfl⟩,
      ⟨rfl, rfl, rfl, rfl⟩, fun _ _ => rfl, fun _ _ _ _ => rfl, rfl, fun hsix => absurd hsix hdisjoint,
      fun hlt => absurd hlt (Nat.not_lt.2 hge), .inr (.inr ⟨hstack, rfl⟩)⟩
  · exact ⟨completed_a, completed_x, completed_y, completed_sp, completed_carry, completed_zn, completed_inert i s,
      fun hj addr => congrArg (Memory.read · addr) (completed_mem_of_ne_jsr hj),
      fun hj addr => completed_read_of_jsr hj, completed_ir i s, completed_pc_cyc,
      fun hlt => absurd hlt (Nat.not_lt.2 hge), .inl (completed_halt i s)⟩

/-- Settles O44: where a step runs an instruction, by its frame; a halt writes no flag. -/
theorem inertFlagsNeverChange : Obligations.InertFlagsNeverChange := by
  intro s t h
  rcases step_cases s with ⟨_, hu⟩ | ⟨_, _, hu⟩ | ⟨_, _, _, hu⟩ | ⟨i, _, _, _, _, _, hu⟩
  · cases hu.symm.trans h
    exact ⟨rfl, rfl, rfl, rfl⟩
  · cases hu.symm.trans h
    exact ⟨rfl, rfl, rfl, rfl⟩
  · cases hu.symm.trans h
    exact ⟨rfl, rfl, rfl, rfl⟩
  · obtain ⟨_, _, _, _, _, _, hinert, _⟩ := execWritesOnlyItsOwnTargets i _ t (hu.symm.trans h)
    exact hinert

end Sys2Proof.Machine
end

section
/-! PROOFS. The access list of a step (R35): its writes are all that a step does to memory, and they are a JSR's two; its
reads are all that a step depends on. -/

namespace Sys2Proof.Machine

variable {s t : State} {i : Instr} {rest : List Byte} {m : Memory} {addr : Word} {v : Byte}

/-! ### The list -/

theorem iterationAccesses_of_no_fetch (hn : ¬ (s.halt = .running ∧ s.cyc ≠ 0)) : iterationAccesses s = [] :=
  if_neg hn

theorem iterationAccesses_of_unrecognized (hr : s.halt = .running) (hc : s.cyc ≠ 0)
    (hl : lookup (s.mem.read s.pc) = none) : iterationAccesses s = [.read s.pc] := by
  rw [iterationAccesses, if_pos ⟨hr, hc⟩, instrBytes, decode_of_unrecognized hl]

theorem iterationAccesses_of_decode (hr : s.halt = .running) (hc : s.cyc ≠ 0)
    (hd : decode (instrBytes s) = .ok (i, rest)) :
    iterationAccesses s = .read s.pc :: (if s.cyc < i.form.cost then [] else operandAccesses i s) := by
  rw [iterationAccesses, if_pos ⟨hr, hc⟩, hd]

/-! ### Writes -/

theorem applyWrites_operandAccesses_of_fault (hf : stackFaults i.form s.sp = true) (m : Memory) :
    applyWrites (operandAccesses i s) m = m := by
  cases i with
  | jsr _ =>
    have hp : ¬ canPush s.sp = true := Bool.eq_false_iff.1 (stackFaults_jsr_eq_true.1 hf)
    rw [operandAccesses, if_neg hp]
    rfl
  | rts =>
    have hp : ¬ canPop s.sp = true := Bool.eq_false_iff.1 (stackFaults_rts_eq_true.1 hf)
    rw [operandAccesses, if_neg hp]
    rfl
  | _ => cases hf

theorem applyWrites_operandAccesses_of_completed (hf : stackFaults i.form s.sp = false) :
    applyWrites (operandAccesses i s) s.mem = (completed i (fetchOpcode s)).mem := by
  cases i with
  | jsr _ =>
    rw [operandAccesses, if_pos (stackFaults_jsr_eq_false.1 hf), ← add_one_add_one]
    rfl
  | rts =>
    rw [operandAccesses, if_pos (stackFaults_rts_eq_false.1 hf)]
    rfl
  | _ => rfl

theorem step_mem_eq_applyWrites (h : step s = .next t) : t.mem = applyWrites (iterationAccesses s) s.mem := by
  rcases step_cases s with ⟨hnr, hu⟩ | ⟨_, hc, hu⟩ | ⟨hr, hc, hl, hu⟩ | ⟨i, _, hr, hc, hd, _, hu⟩
  · cases hu.symm.trans h
    rw [iterationAccesses_of_no_fetch fun hf => hnr hf.1]
    rfl
  · cases hu.symm.trans h
    rw [iterationAccesses_of_no_fetch fun hf => hf.2 hc]
    rfl
  · cases hu.symm.trans h
    rw [iterationAccesses_of_unrecognized hr hc hl]
    rfl
  · rw [iterationAccesses_of_decode hr hc hd]
    have hpos := i.form.cost_pos
    rcases exec_cases (hu.symm.trans h) with ⟨hlt, rfl⟩ | ⟨hge, hf, rfl⟩ | ⟨hge, hf, rfl⟩
    · rw [fetchOpcode_cyc] at hlt
      rw [if_pos (by omega)]
      rfl
    · rw [fetchOpcode_cyc] at hge
      rw [if_neg (by omega)]
      exact (applyWrites_operandAccesses_of_fault (s := s) hf s.mem).symm
    · rw [fetchOpcode_cyc] at hge
      rw [if_neg (by omega)]
      exact (applyWrites_operandAccesses_of_completed (s := s) hf).symm

/-- Among an instruction's accesses only a JSR's push writes. -/
theorem write_mem_operandAccesses (h : .write addr v ∈ operandAccesses i s) :
    i.form = .jsr ∧ canPush s.sp = true ∧ (addr = s.sp ∨ addr = s.sp - 1) := by
  cases i with
  | jsr _ =>
    by_cases hp : canPush s.sp = true
    · have hcell : addr = s.sp ∧ v = hiByte (s.pc + 2) ∨ addr = s.sp - 1 ∧ v = loByte (s.pc + 2) := by
        simpa [operandAccesses, hp] using h
      exact ⟨rfl, hp, hcell.imp And.left And.left⟩
    · simp [operandAccesses, hp] at h
  | rts =>
    by_cases hp : canPop s.sp = true <;> simp [operandAccesses, hp] at h
  | _ => simp [operandAccesses] at h

theorem write_mem_iterationAccesses (h : .write addr v ∈ iterationAccesses s) :
    s.mem.read s.pc = opcJsr ∧ canPush s.sp = true ∧ (addr = s.sp ∨ addr = s.sp - 1) := by
  rcases step_cases s with ⟨hnr, _⟩ | ⟨_, hc, _⟩ | ⟨hr, hc, hl, _⟩ | ⟨i, _, hr, hc, hd, hb, _⟩
  · rw [iterationAccesses_of_no_fetch fun hf => hnr hf.1] at h
    cases h
  · rw [iterationAccesses_of_no_fetch fun hf => hf.2 hc] at h
    cases h
  · simp [iterationAccesses_of_unrecognized hr hc hl] at h
  · have hmem : .write addr v ∈ operandAccesses i s := by
      rw [iterationAccesses_of_decode hr hc hd] at h
      split at h
      · simp at h
      · simpa using h
    obtain ⟨hj, hcells⟩ := write_mem_operandAccesses hmem
    exact ⟨hb.trans (congrArg Form.opcode hj), hcells⟩

theorem inStackPage_of_pushed (hp : canPush s.sp = true) (h : addr = s.sp ∨ addr = s.sp - 1) :
    inStackPage addr.toNat = true := by
  obtain ⟨hlo, hhi⟩ := canPush_iff.1 hp
  rw [inStackPage_iff]
  rcases h with rfl | rfl
  · omega
  · have hsub : (s.sp - 1).toNat = s.sp.toNat - 1 :=
      BitVec.toNat_sub_of_le (BitVec.le_def.2 (Nat.one_le_of_lt hlo))
    omega

/-- Settles O46: the list's writes are those of the push, where it does not fault. -/
theorem listedWritesAreAllTheWrites : Obligations.ListedWritesAreAllTheWrites := by
  refine ⟨fun _ _ h => step_mem_eq_applyWrites h, fun s addr v h => ?_⟩
  obtain ⟨_, hp, hcell⟩ := write_mem_iterationAccesses h
  exact inStackPage_of_pushed hp hcell

/-- A cell that no access of a list writes reads the same after the list's writes. -/
theorem read_applyWrites_of_no_write (accesses : List Access) (m : Memory)
    (h : ∀ v, .write addr v ∉ accesses) : (applyWrites accesses m).read addr = m.read addr := by
  induction accesses generalizing m with
  | nil => rfl
  | cons access accesses ih =>
    have htail : ∀ v, .write addr v ∉ accesses := fun v hv => h v (List.mem_cons_of_mem _ hv)
    cases access with
    | read _ => exact ih m htail
    | write b w =>
      have hne : addr ≠ b := fun he => h w (he ▸ List.mem_cons_self)
      exact (ih (m.write b w) htail).trans (Memory.read_write_other hne w)

/-- Settles O45: a cell that reads differently after a step is among the writes of the step's list. -/
theorem onlyJsrWritesMemoryAndOnlyItsStackSlots : Obligations.OnlyJsrWritesMemoryAndOnlyItsStackSlots := by
  intro s t addr h hne
  rw [step_mem_eq_applyWrites h] at hne
  obtain ⟨v, hv⟩ : ∃ v, .write addr v ∈ iterationAccesses s := by
    by_contra hnone
    exact hne (read_applyWrites_of_no_write _ _ (not_exists.1 hnone))
  obtain ⟨hb, hp, hcell⟩ := write_mem_iterationAccesses hv
  exact ⟨hb, inStackPage_of_pushed hp hcell, hcell⟩

/-! ### Reads -/

/-- Every byte of an instruction's encoding is fetched where its budget suffices. -/
theorem encoded_byte_is_read {k : Nat} (hk : k < (encode i).length) :
    s.pc + BitVec.ofNat 16 k ∈ s.pc :: readsOf (operandAccesses i s) := by
  have hlen := (encode_length i).trans_le i.form.length_le
  match k, hk with
  | 0, _ => simp
  | 1, hk =>
    cases i with
    | rts | clc | sec | tax | tay | txa | tya => simp [encode] at hk
    | _ => exact List.mem_cons_of_mem _ List.mem_cons_self
  | 2, hk =>
    cases i with
    | jsr _ => exact List.mem_cons_of_mem _ (List.mem_cons_of_mem _ List.mem_cons_self)
    | _ => simp [encode] at hk
  | k + 3, hk => omega

theorem decode_of_reads_agree (hd : decode (instrBytes s) = .ok (i, rest))
    (hm : ∀ a ∈ s.pc :: readsOf (operandAccesses i s), m.read a = s.mem.read a) :
    ∃ rest', decode (instrBytes { s with mem := m }) = .ok (i, rest') :=
  decode_instrBytes_iff.2 fun k b hb =>
    (hm _ (encoded_byte_is_read (List.getElem?_eq_some_iff.1 hb).1)).trans (decode_instrBytes_iff.1 ⟨_, hd⟩ k b hb)

theorem fetchOpcode_with_mem (hm : m.read s.pc = s.mem.read s.pc) :
    fetchOpcode { s with mem := m } = { fetchOpcode s with mem := m } :=
  fetchOpcode_of_read hm

theorem step_of_reads_agree (hr : s.halt = .running) (hc : s.cyc ≠ 0) (hd : decode (instrBytes s) = .ok (i, rest))
    (hm : ∀ a ∈ s.pc :: readsOf (operandAccesses i s), m.read a = s.mem.read a) :
    step { s with mem := m } = exec i { fetchOpcode s with mem := m } := by
  obtain ⟨_, hd'⟩ := decode_of_reads_agree hd hm
  rw [step_exec (s := { s with mem := m }) hr hc hd', fetchOpcode_with_mem (hm _ List.mem_cons_self)]

/-- The data that an instruction reads is all it takes from memory; the result but for memory depends on no more. -/
theorem completed_with_mem (hf : stackFaults i.form s.sp = false)
    (hm : ∀ a ∈ readsOf (operandAccesses i s), m.read a = s.mem.read a) :
    { completed i { fetchOpcode s with mem := m } with mem := (completed i (fetchOpcode s)).mem } =
      completed i (fetchOpcode s) := by
  cases i with
  | ldaZp zp =>
    have hdata : m.read (zeroPageEa zp) = s.mem.read (zeroPageEa zp) := hm _ (by simp [operandAccesses, readsOf])
    exact congrArg (fun v => loadA v (spend 1 (advance 1 (fetchOpcode s)))) hdata
  | ldaZpX zp =>
    have hdata : m.read (zeroPageXEa zp s.x) = s.mem.read (zeroPageXEa zp s.x) :=
      hm _ (by simp [operandAccesses, readsOf])
    exact congrArg (fun v => loadA v (spend 1 (spend 1 (advance 1 (fetchOpcode s))))) hdata
  | rts =>
    have hp := stackFaults_rts_eq_false.1 hf
    have hlow : m.read (s.sp + 1) = s.mem.read (s.sp + 1) := hm _ (by simp [operandAccesses, hp, readsOf])
    have hhigh : m.read (s.sp + 2) = s.mem.read (s.sp + 2) := hm _ (by simp [operandAccesses, hp, readsOf])
    exact congrArg₂ (fun high low => { completed .rts (fetchOpcode s) with pc := wordOf high low + 1 }) hhigh hlow
  | _ => rfl

/-- Settles O47: memory decides the opcode, and where the budget suffices the operand and the data read. -/
theorem stepDependsOnListedReadsOnly : Obligations.StepDependsOnListedReadsOnly := by
  intro s t m h hm
  rcases step_cases s with ⟨hnr, hu⟩ | ⟨hr, hc, hu⟩ | ⟨hr, hc, hl, hu⟩ | ⟨i, _, hr, hc, hd, hb, hu⟩
  · cases hu.symm.trans h
    exact ⟨_, step_not_running (s := { s with mem := m }) hnr, rfl⟩
  · cases hu.symm.trans h
    exact ⟨_, step_budget_exhausted (s := { s with mem := m }) hr hc, rfl⟩
  · cases hu.symm.trans h
    rw [iterationAccesses_of_unrecognized hr hc hl] at hm
    have hop : m.read s.pc = s.mem.read s.pc := hm _ List.mem_cons_self
    refine ⟨_, step_unrecognized (s := { s with mem := m }) hr hc ((congrArg lookup hop).trans hl), ?_⟩
    rw [fetchOpcode_with_mem hop]
    rfl
  · rw [iterationAccesses_of_decode hr hc hd] at hm
    have hop : m.read s.pc = s.mem.read s.pc := hm _ List.mem_cons_self
    have hpos := i.form.cost_pos
    rcases exec_cases (hu.symm.trans h) with ⟨hlt, rfl⟩ | ⟨hge, hf, rfl⟩ | ⟨hge, hf, rfl⟩
    · obtain ⟨j, _, hj, hstep⟩ := step_of_opcode (s := { s with mem := m }) i.form hr hc (hop.trans hb)
      rw [fetchOpcode_with_mem hop, exec_short (by rw [(decodeOperand_ok hj).1]; exact hlt)] at hstep
      exact ⟨_, hstep, rfl⟩
    · rw [fetchOpcode_cyc] at hge
      rw [if_neg (by omega)] at hm
      exact ⟨_, (step_of_reads_agree hr hc hd hm).trans (exec_fault hge hf), rfl⟩
    · rw [fetchOpcode_cyc] at hge
      rw [if_neg (by omega)] at hm
      exact ⟨_, (step_of_reads_agree hr hc hd hm).trans (exec_completed hge hf),
        completed_with_mem hf fun a ha => hm a (List.mem_cons_of_mem _ ha)⟩

end Sys2Proof.Machine
end

section
/-! PROOFS. Execute as a whole (R77, R83, R84): that every run ends, where a run split at BudgetExhausted goes on, and the
runs of one instruction. -/

namespace Sys2Proof.Machine

variable {s t u : State} {i : Instr} {rest : List Byte} {n budget : Nat}

/-! ### Termination -/

/-- A step of a running machine goes on or ends in one of the four halts, never in None (R22, R140). -/
theorem step_running_or_halted (hr : s.halt = .running) (h : step s = .next t) :
    t.halt = .running ∨ ∃ r, t.halt = .halted r := by
  rcases step_cases s with ⟨hnr, _⟩ | ⟨_, _, hu⟩ | ⟨_, _, _, hu⟩ | ⟨i, _, _, _, _, _, hu⟩
  · exact absurd hr hnr
  · cases hu.symm.trans h
    exact .inr ⟨_, rfl⟩
  · cases hu.symm.trans h
    exact .inr ⟨_, rfl⟩
  · rcases exec_halt_cases (hu.symm.trans h) with ⟨_, ht⟩ | ⟨_, _, ht⟩ | ⟨_, ht⟩
    · exact .inr ⟨_, ht⟩
    · exact .inr ⟨_, ht⟩
    · exact .inl (ht.trans hr)

theorem runLoop_of_step_stops (h : step s = .next t) (ht : t.halt ≠ .running) : runLoop (n + 1) s = .next t :=
  (runLoop_of_step h).trans (runLoop_not_running ht)

/-- A running machine is halted once the loop has been taken more often than there are cycles: each time but the last spends
one (R84). After that the loop changes nothing. -/
theorem runLoop_halts (n : Nat) {s : State} (hr : s.halt = .running) (hc : s.cyc < n) :
    ∃ t r, t.halt = .halted r ∧ t.cyc ≤ s.cyc ∧ ∀ k, n ≤ k → runLoop k s = .next t := by
  induction n generalizing s with
  | zero => exact absurd hc (Nat.not_lt_zero _)
  | succ n ih =>
    obtain ⟨u, h⟩ := step_answers s
    have hle := step_cyc_le h
    rcases step_running_or_halted hr h with hu | ⟨r, hu⟩
    · have hc0 : s.cyc ≠ 0 := fun hc0 => by
        cases (step_budget_exhausted hr hc0).symm.trans h
        cases hu
      have hlt := step_cyc_lt hr hc0 h
      obtain ⟨t, r, ht, htc, hrun⟩ := ih hu (by omega)
      refine ⟨t, r, ht, htc.trans hle, fun k hk => ?_⟩
      obtain ⟨k, rfl⟩ := Nat.exists_eq_succ_of_ne_zero (Nat.ne_zero_of_lt hk)
      exact (runLoop_of_step h).trans (hrun k (Nat.le_of_succ_le_succ hk))
    · refine ⟨u, r, hu, hle, fun k hk => ?_⟩
      obtain ⟨k, rfl⟩ := Nat.exists_eq_succ_of_ne_zero (Nat.ne_zero_of_lt hk)
      exact runLoop_of_step_stops h (by simp [hu])

theorem execute_halts (budget : Nat) (s : State) : ∃ t r, t.halt = .halted r ∧ t.cyc ≤ budget ∧
    ∀ k, budget + 1 ≤ k → runLoop k (beginRun budget s) = .next t :=
  runLoop_halts (budget + 1) (beginRun_halt budget s) (Nat.lt_succ_self budget)

/-- Settles O38: the budget is the cycles that the run begins with. -/
theorem everyExecuteTerminates : Obligations.EveryExecuteTerminates := by
  intro budget s
  obtain ⟨t, r, ht, hc, hrun⟩ := execute_halts budget s
  exact ⟨t, r, hrun _ (Nat.le_refl _), ht, hc, fun n hn => (core_run_eq_runLoop n _).trans (hrun n hn)⟩

/-- More loop iterations than Execute takes change nothing. -/
theorem runLoop_eq_execute (hn : budget + 1 ≤ n) : runLoop n (beginRun budget s) = execute budget s := by
  obtain ⟨t, _, _, _, hrun⟩ := execute_halts budget s
  exact (hrun n hn).trans (hrun _ (Nat.le_refl _)).symm

/-! ### Splitting a run -/

/-- The same state with k cycles more to spend. -/
def addCycles (k : Nat) (s : State) : State := { s with cyc := s.cyc + k }

/-- A run of k cycles more begins like the run, with k cycles more (R77). -/
theorem addCycles_beginRun (k : Nat) : addCycles k (beginRun n s) = beginRun (n + k) s := rfl

theorem beginRun_haltWith (k : Nat) (r : HaltReason) (s : State) : beginRun k (haltWith r s) = beginRun k s := rfl

theorem addCycles_of_spent (hr : s.halt = .running) (hc : s.cyc = 0) (k : Nat) : addCycles k s = beginRun k s := by
  rw [addCycles, beginRun, hc, Nat.zero_add, ← hr]

/-- An instruction takes its cycles off CYC and reads nothing else of it (R20). -/
theorem completed_with_cyc (c : Nat) :
    completed i { s with cyc := c } = { completed i s with cyc := c - (i.form.cost - 1) } := by
  cases i <;> rfl

theorem completed_addCycles (hc : i.form.cost - 1 ≤ s.cyc) (k : Nat) :
    completed i (addCycles k s) = addCycles k (completed i s) := by
  have hspent : (completed i s).cyc = s.cyc - (i.form.cost - 1) := by
    exact congrArg State.cyc (completed_with_cyc s.cyc)
  rw [addCycles, completed_with_cyc, addCycles, hspent, Nat.sub_add_comm hc]

theorem fetchOpcode_addCycles (hc : s.cyc ≠ 0) (k : Nat) :
    fetchOpcode (addCycles k s) = addCycles k (fetchOpcode s) := by
  have hcyc : s.cyc + k - 1 = s.cyc - 1 + k := by omega
  exact congrArg (fun c => { fetchOpcode s with cyc := c }) hcyc

/-- A step that goes on would have gone on in the same way with more cycles to spend (R89). -/
theorem step_addCycles (hr : s.halt = .running) (h : step s = .next t) (ht : t.halt = .running) (k : Nat) :
    step (addCycles k s) = .next (addCycles k t) := by
  rcases step_cases s with ⟨hnr, _⟩ | ⟨_, _, hu⟩ | ⟨_, _, _, hu⟩ | ⟨i, _, _, hc, hd, _, hu⟩
  · exact absurd hr hnr
  · cases hu.symm.trans h
    cases ht
  · cases hu.symm.trans h
    cases ht
  · have hc' : s.cyc + k ≠ 0 := by omega
    rw [step_exec (s := addCycles k s) hr hc' hd, fetchOpcode_addCycles hc]
    rcases exec_cases (hu.symm.trans h) with ⟨_, rfl⟩ | ⟨_, _, rfl⟩ | ⟨hge, hf, rfl⟩
    · cases ht
    · cases ht
    · rw [← completed_addCycles hge]
      exact exec_completed (hge.trans (Nat.le_add_right _ _)) hf

/-- A run that ends with BudgetExhausted has performed only whole instructions; with k cycles more it comes, after fewer
iterations than the run took, to where a run of k cycles begins from the state in which it ended. -/
theorem runLoop_addCycles (hr : s.halt = .running) (h : runLoop n s = .next t)
    (ht : t.halt = .halted .budgetExhausted) (k : Nat) :
    ∃ j < n, ∀ m, runLoop (m + j) (addCycles k s) = runLoop m (beginRun k t) := by
  induction n generalizing s with
  | zero =>
    cases h
    simp [hr] at ht
  | succ n ih =>
    obtain ⟨u, hstep⟩ := step_answers s
    rw [runLoop_of_step hstep] at h
    by_cases hc : s.cyc = 0
    · obtain rfl := Host.Outcome.next.inj ((step_budget_exhausted hr hc).symm.trans hstep)
      cases (runLoop_not_running (by simp)).symm.trans h
      exact ⟨0, Nat.succ_pos n, fun m => by rw [addCycles_of_spent hr hc, beginRun_haltWith]; rfl⟩
    · by_cases hu : u.halt = .running
      · obtain ⟨j, hj, hrun⟩ := ih hu h
        exact ⟨j + 1, Nat.succ_lt_succ hj,
          fun m => (runLoop_of_step (step_addCycles hr hstep hu k)).trans (hrun m)⟩
      · cases (runLoop_not_running hu).symm.trans h
        exact absurd ht (step_halt_ne_budgetExhausted hr hc hstep)

/-- Settles O39: the unsplit run passes through the beginning of the second part, with iterations enough left for it. -/
theorem splitRunEqualsUnsplitRun : Obligations.SplitRunEqualsUnsplitRun := by
  intro b1 b2 s t h ht
  obtain ⟨j, hj, hrun⟩ := runLoop_addCycles (beginRun_halt b1 s) h ht b2
  have hsplit : b1 + b2 + 1 = b1 + b2 + 1 - j + j := by omega
  calc execute b2 t
      = runLoop (b1 + b2 + 1 - j) (beginRun b2 t) := (runLoop_eq_execute (by omega)).symm
    _ = runLoop (b1 + b2 + 1 - j + j) (addCycles b2 (beginRun b1 s)) := (hrun _).symm
    _ = execute (b1 + b2) s := by rw [← hsplit, addCycles_beginRun, execute]

/-! ### Runs of one instruction -/

theorem execute_of_step_stops (h : step (beginRun budget s) = .next t) (ht : t.halt ≠ .running) :
    execute budget s = .next t :=
  runLoop_of_step_stops h ht

/-- Settles O40: the step spends the whole budget, so the next iteration ends the run at the loop condition. -/
theorem executeOfTheCostIsASingleStep : Obligations.ExecuteOfTheCostIsASingleStep := by
  intro s t i rest hd h ht
  have hpos : i.form.cost ≠ 0 := Nat.ne_zero_of_lt i.form.cost_pos
  have hspent : t.cyc + i.form.cost = i.form.cost := step_running_cyc (beginRun_halt _ s) hpos hd h ht
  have hc : t.cyc = 0 := Nat.add_eq_right.1 hspent
  obtain ⟨c, hcost⟩ := Nat.exists_eq_succ_of_ne_zero hpos
  refine ⟨hc, (runLoop_of_step h).trans ?_⟩
  rw [hcost]
  exact runLoop_of_step_stops (step_budget_exhausted ht hc) (by simp)

/-- Settles O41: the first iteration halts, after its opcode fetch. -/
theorem executeEndsAtAnUnperformedInstruction : Obligations.ExecuteEndsAtAnUnperformedInstruction := by
  refine ⟨fun s i rest budget hd h1 hlt => ?_, fun s budget hop h1 => ?_⟩
  · have hshort : budget - 1 < i.form.cost - 1 := by omega
    exact execute_of_step_stops ((step_exec (beginRun_halt budget s) (Nat.ne_zero_of_lt h1) hd).trans
      (exec_short hshort)) (by simp)
  · exact execute_of_step_stops (step_unrecognized (beginRun_halt budget s) (Nat.ne_zero_of_lt h1)
      (lookup_eq_none_iff_not_mem_opcodes.2 hop)) (by simp)

/-- InsufficientBudget leaves the opcode fetched and nothing else done (R142). -/
theorem step_eq_of_insufficientBudget (hr : s.halt = .running) (h : step s = .next t)
    (ht : t.halt = .halted .insufficientBudget) : t = haltWith .insufficientBudget (fetchOpcode s) := by
  rcases step_cases s with ⟨hnr, _⟩ | ⟨_, _, hu⟩ | ⟨_, _, _, hu⟩ | ⟨i, _, _, _, _, _, hu⟩
  · exact absurd hr hnr
  · cases hu.symm.trans h
    cases ht
  · cases hu.symm.trans h
    cases ht
  · rcases exec_cases (hu.symm.trans h) with ⟨_, rfl⟩ | ⟨_, _, rfl⟩ | ⟨_, _, rfl⟩
    · rfl
    · cases ht
    · rw [completed_halt, fetchOpcode_halt, hr] at ht
      cases ht

/-- Settles O42: PC stands at the byte after the opcode, and the next run begins with the opcode fetch. -/
theorem runAfterEarlyExitStartsAtTheOperand : Obligations.RunAfterEarlyExitStartsAtTheOperand := by
  intro s t budget hr h ht h1
  obtain rfl := step_eq_of_insufficientBudget hr h ht
  exact ⟨rfl, step_fetches (beginRun_halt budget _) (Nat.ne_zero_of_lt h1)⟩

end Sys2Proof.Machine
end

section
/-! PROOFS. The host's operations (R44, R170, R173): when they are allowed, what each answers and changes, and that they keep
the invariant. -/

namespace Sys2Proof.Machine

variable {s t : State} {op : HostOp} {reply : HostReply} {n budget : Nat}

/-! ### What each operation answers -/

theorem hostMove_of_stopped (hs : s.halt ≠ .running) (op : HostOp) : hostMove op (some s) = hostMoveStopped op s :=
  if_neg hs

theorem hostMove_of_running (hs : s.halt = .running) (op : HostOp) :
    hostMove op (some s) = .refused .processorRunning :=
  if_pos hs

theorem hostMove_next (h : hostMove op (some s) = .next (t, reply)) :
    s.halt ≠ .running ∧ hostMoveStopped op s = .next (t, reply) := by
  by_cases hs : s.halt = .running
  · cases (hostMove_of_running hs op).symm.trans h
  · exact ⟨hs, (hostMove_of_stopped hs op).symm.trans h⟩

theorem hostExecute_next (h : hostExecute budget s = .next (t, reply)) :
    execute budget s = .next t ∧ reply = .status t.halt := by
  obtain ⟨u, _, _, _, hrun⟩ := execute_halts budget s
  have hu : execute budget s = .next u := hrun _ (Nat.le_refl _)
  rw [hostExecute, hu] at h
  cases h
  exact ⟨hu, rfl⟩

theorem hostWriteWord_below_top {value addr : Word} (ha : addr ≠ 0xFFFF) : hostWriteWord value addr s =
    .next ({ s with mem := (s.mem.write addr (loByte value)).write (addr + 1) (hiByte value) }, .nothing) :=
  if_neg ha

theorem hostWriteWord_next {value addr : Word} (h : hostWriteWord value addr s = .next (t, reply)) :
    t = { s with mem := (s.mem.write addr (loByte value)).write (addr + 1) (hiByte value) } ∧ reply = .nothing := by
  by_cases ha : addr = 0xFFFF
  · cases (if_pos ha).symm.trans h
  · cases (hostWriteWord_below_top ha).symm.trans h
    exact ⟨rfl, rfl⟩

theorem hostObserve_ir_of_none (hir : s.ir = none) : hostObserve .ir s = .refused .irHoldsNoValue := by
  rw [hostObserve, hir]

theorem hostObserve_ir_of_some {v : Byte} (hir : s.ir = some v) : hostObserve .ir s = .next (s, .byte v) := by
  rw [hostObserve, hir]

/-- Settles O53: operation by operation. -/
theorem hostWritesMemoryOnly : Obligations.HostWritesMemoryOnly := by
  intro op s t reply h
  obtain ⟨hs, h⟩ := hostMove_next h
  refine ⟨hs, ?_⟩
  cases op with
  | reset => cases h; exact ⟨rfl, rfl⟩
  | execute budget => exact hostExecute_next h
  | read addr => cases h; exact ⟨rfl, rfl⟩
  | write addr v => cases h; exact ⟨rfl, rfl⟩
  | writeWord value addr =>
    obtain ⟨rfl, rfl⟩ := hostWriteWord_next h
    exact ⟨rfl, rfl⟩
  | zeroMemory => cases h; exact ⟨rfl, rfl, fun _ => rfl⟩
  | observe what =>
    cases what with
    | ir =>
      cases hir : s.ir with
      | none => cases (hostObserve_ir_of_none hir).symm.trans h
      | some v => cases (hostObserve_ir_of_some hir).symm.trans h; exact ⟨rfl, v, rfl, rfl⟩
    | _ => cases h; exact ⟨rfl, rfl⟩

/-- Settles O54: by reading after one write. -/
theorem hostReadsTheByteLastWritten : Obligations.HostReadsTheByteLastWritten := by
  intro s addr v hm hs
  refine ⟨_, hostMove_of_stopped hs _, fun b => ?_⟩
  rw [hostMove_of_stopped, ← Memory.read_write hm]
  · rfl
  · exact hs

/-- Settles O55: by reading after two writes, at two different addresses. -/
theorem writeWordIsLittleEndian : Obligations.WriteWordIsLittleEndian := by
  refine ⟨fun s value addr hm hs ha => ⟨_, (hostMove_of_stopped hs _).trans (hostWriteWord_below_top ha), ?_, ?_, ?_⟩,
    fun s value hs => hostMove_of_stopped hs _⟩
  · have hne : addr ≠ addr + 1 := by bv_omega
    exact (Memory.read_write_other hne _).trans (Memory.read_write_same hm _ _)
  · exact Memory.read_write_same (Memory.write_wf hm _ _) _ _
  · exact fun b h0 h1 => (Memory.read_write_other h1 _).trans (Memory.read_write_other h0 _)

/-- Settles O56: before the first reset by the operation, during a run by HALT, and IR by its value. -/
theorem hostIsRefusedWhereTheSpecGivesNoMove : Obligations.HostIsRefusedWhereTheSpecGivesNoMove := by
  refine ⟨fun op hop => ?_, fun op s hs => hostMove_of_running hs op,
    fun s hs hir => (hostMove_of_stopped hs _).trans (hostObserve_ir_of_none hir),
    fun s v hs hir => (hostMove_of_stopped hs _).trans (hostObserve_ir_of_some hir)⟩
  cases op with
  | reset => exact absurd rfl hop
  | _ => rfl

/-! ### Reset -/

/-- Reset() answers the reset state before the first reset and from every state but a running one (R170). -/
theorem hostMove_reset {m : Option State} (hm : ∀ s, m = some s → s.halt ≠ .running) :
    hostMove .reset m = .next (State.reset, .nothing) := by
  cases m with
  | none => rfl
  | some s => exact hostMove_of_stopped (hm s rfl) .reset

/-- Settles O51: the reset state has each of the values. -/
theorem resetSetsEveryPieceOfState : Obligations.ResetSetsEveryPieceOfState :=
  fun _ hm => ⟨State.reset, hostMove_reset hm, rfl, rfl, rfl, rfl, rfl, rfl, fun _ => rfl, rfl, rfl, rfl⟩

theorem form_mem_of_cost_le_one {f : Form} (h : f.cost ≤ 1) :
    f ∈ [.clc, .sec, .tax, .tay, .txa, .tya] := by
  revert h
  cases f <;> decide

/-- After the last cycle no instruction moves PC: it needs no more, or the budget is short (R81). -/
theorem exec_pc_of_no_cycle {i : Instr} (hc : s.cyc = 0) (h : exec i s = .next t) : t.pc = s.pc := by
  obtain ⟨_, _, _, _, _, _, _, _, _, _, hone, hshort, _⟩ := execWritesOnlyItsOwnTargets i s t h
  by_cases hcost : i.form.cost ≤ 1
  · exact (hone (form_mem_of_cost_le_one hcost)).1
  · exact (hshort (by omega)).1

/-- With one cycle a step fetches the opcode and moves PC by no more. -/
theorem step_pc_of_one_cycle (hr : s.halt = .running) (hc : s.cyc = 1) (h : step s = .next t) : t.pc = s.pc + 1 := by
  rcases step_cases s with ⟨hnr, _⟩ | ⟨_, hc0, _⟩ | ⟨_, _, _, hu⟩ | ⟨i, _, _, _, _, _, hu⟩
  · exact absurd hr hnr
  · omega
  · cases hu.symm.trans h
    rfl
  · exact exec_pc_of_no_cycle (s := fetchOpcode s) (Nat.sub_eq_zero_of_le hc.le) (hu.symm.trans h)

/-- Execute(1) is one opcode fetch: it leaves IR at the byte fetched and PC one further. -/
theorem execute_one_fetches (s : State) :
    ∃ t, execute 1 s = .next t ∧ t.ir = some (s.mem.read s.pc) ∧ t.pc = s.pc + 1 := by
  have hr : (beginRun 1 s).halt = .running := rfl
  obtain ⟨u, hu, hir⟩ := step_fetches hr one_ne_zero
  have hpc : u.pc = s.pc + 1 := step_pc_of_one_cycle (s := beginRun 1 s) hr rfl hu
  have hc : u.cyc = 0 := Nat.lt_one_iff.1 (step_cyc_lt hr one_ne_zero hu)
  obtain ⟨t, ht⟩ := step_answers u
  refine ⟨t, (runLoop_of_step hu).trans (runLoop_of_step ht), ?_⟩
  rw [step_eq_of_no_fetch (fun hf => hf.2 hc) ht]
  exact ⟨hir, hpc⟩

/-- Settles O52: the run's one cycle goes into the fetch at 0xFFFC; and the host's other operations keep all but memory. -/
theorem resetLocationIsFetchedAsCode : Obligations.ResetLocationIsFetchedAsCode := by
  refine ⟨fun v0 v1 => ?_, fun op s t reply h hreset hexecute => ?_⟩
  · obtain ⟨t, h, hir, hpc⟩ :=
      execute_one_fetches { State.reset with mem := (State.reset.mem.write 0xFFFC v0).write 0xFFFD v1 }
    refine ⟨t, h, hir.trans (congrArg some ?_), hpc⟩
    have hne : (0xFFFC : Word) ≠ 0xFFFD := by decide
    exact (Memory.read_write_other hne v1).trans (Memory.read_write_same Memory.nil_wf _ v0)
  · obtain ⟨_, hkeeps⟩ := hostWritesMemoryOnly op s t reply h
    cases op with
    | reset => exact absurd rfl hreset
    | execute budget => exact absurd rfl (hexecute budget)
    | read _ | observe _ => rw [hkeeps.1]
    | write _ _ | writeWord _ _ | zeroMemory => rw [hkeeps.1]

/-! ### The invariant -/

/-- Settles O48: the reset state is a literal, and the invariant decides on it. -/
theorem resetStateIsLegal : Obligations.ResetStateIsLegal := by
  unfold Obligations.ResetStateIsLegal
  decide

/-- The invariant takes only the canonical form from memory. -/
theorem legal_with_mem {m : Memory} (hs : s.legal = true) (hm : m.wf = true) :
    ({ s with mem := m } : State).legal = true :=
  legal_iff.2 ⟨hm, (legal_iff.1 hs).2⟩

theorem beginRun_legal (budget : Nat) (hs : s.legal = true) : (beginRun budget s).legal = true := by
  obtain ⟨hm, hsp, hfl, _⟩ := legal_iff.1 hs
  exact legal_iff.2 ⟨hm, hsp, hfl, haltConsistent_of_running rfl⟩

theorem runLoop_keeps_legal (hs : s.legal = true) (h : runLoop n s = .next t) : t.legal = true := by
  induction n generalizing s with
  | zero => cases h; exact hs
  | succ n ih =>
    obtain ⟨u, hu⟩ := step_answers s
    exact ih (stepKeepsTheStateLegal s u hs hu) ((runLoop_of_step hu).symm.trans h)

/-- Settles O50: Reset() gives the reset state, Execute takes steps, and writing keeps memory canonical. -/
theorem hostMovesKeepTheStateLegal : Obligations.HostMovesKeepTheStateLegal := by
  intro op s t reply hs h
  have hop := hostWritesMemoryOnly op s t reply h
  obtain ⟨_, h⟩ := hostMove_next h
  obtain ⟨hm, _⟩ := legal_iff.1 hs
  cases op with
  | reset => cases h; exact resetStateIsLegal
  | execute budget => exact runLoop_keeps_legal (beginRun_legal budget hs) (hostExecute_next h).1
  | read _ => cases h; exact hs
  | write addr v => cases h; exact legal_with_mem hs (Memory.write_wf hm addr v)
  | writeWord value addr =>
    obtain ⟨rfl, _⟩ := hostWriteWord_next h
    exact legal_with_mem hs (Memory.write_wf (Memory.write_wf hm _ _) _ _)
  | zeroMemory => cases h; exact legal_with_mem hs Memory.nil_wf
  | observe what =>
    obtain ⟨_, rfl, _⟩ := hop
    exact hs

end Sys2Proof.Machine
end
